-- ==== Sys2Proof/Word.lean ====
section
/-! DEFINITION. Word.lean: the word types of the ESEIntercom framing block (00_scope.md R7, R8): bytes, 16-bit and 32-bit
operands, and byte strings. -/

namespace Sys2Proof

/-- A byte: 8-bit unsigned (00_scope.md R7). -/
abbrev Byte := BitVec 8

/-- A `u16` operand (30_encoding.md R71). -/
abbrev Half := BitVec 16

/-- A `u32` operand, header field or register (00_scope.md R7, 30_encoding.md R71). -/
abbrev Word := BitVec 32

/-- A byte string: a finite sequence of bytes, the first on the wire first (00_scope.md R8). -/
abbrev ByteString := List Byte

/-- A Message record as it lies in the message queue: its bytes (30_encoding.md R84, 60_exceptions.md R232). -/
abbrev Record := ByteString

end Sys2Proof
end

