-- ==== Sys2Proof/Machine/Bytes.lean ====
section
/-! DEFINITION. Machine/Bytes.lean: the little-endian byte order (20_memory.md R51) and the readers of operands
(30_encoding.md R71), written once for the header, the record, the commands and the responses. -/

namespace Sys2Proof.Machine

/-- The largest value of a `u32`, 2^32-1: the bound of lengths, and where the u32 views saturate (00_scope.md R7, 10_state.md R22). -/
def maxU32 : Nat := 4294967295

/-- `s[i]`, byte `i` counting from 0 (00_scope.md R8); used only for `i < len(s)`. -/
def byteAt (s : ByteString) (i : Nat) : Byte := s.getD i 0

/-- `rd16(s, o)` (00_scope.md R8). -/
def rd16 (s : ByteString) (o : Nat) : Half :=
  BitVec.ofNat 16 ((byteAt s o).toNat + 256 * (byteAt s (o + 1)).toNat)

/-- `rd32(s, o)` (00_scope.md R8). -/
def rd32 (s : ByteString) (o : Nat) : Word :=
  BitVec.ofNat 32 ((byteAt s o).toNat + 256 * (byteAt s (o + 1)).toNat + 65536 * (byteAt s (o + 2)).toNat
    + 16777216 * (byteAt s (o + 3)).toNat)

/-- `le16(v)` (00_scope.md R8). -/
def le16 (v : Half) : ByteString := [v.extractLsb' 0 8, v.extractLsb' 8 8]

/-- `le32(v)` (00_scope.md R8). -/
def le32 (v : Word) : ByteString :=
  [v.extractLsb' 0 8, v.extractLsb' 8 8, v.extractLsb' 16 8, v.extractLsb' 24 8]

/-- A length as a `u32`: `v mod 2^32`, as `le32` takes it (00_scope.md R8). -/
def lengthWord (n : Nat) : Word := BitVec.ofNat 32 n

/-- A `bytes` operand or result: the 32-bit length, then the content (30_encoding.md R71). -/
def encodeBytes (b : ByteString) : ByteString := le32 (lengthWord b.length) ++ b

/-- Read a `u8` operand at the head of what is left of a transaction; `none` if it runs past the end (30_encoding.md R71). -/
def takeU8 : ByteString → Option (Byte × ByteString)
  | [] => none
  | b :: rest => some (b, rest)

/-- Read a `u16` operand (30_encoding.md R71). -/
def takeU16 (t : ByteString) : Option (Half × ByteString) :=
  if t.length < 2 then none else some (rd16 t 0, t.drop 2)

/-- Read a `u32` operand (30_encoding.md R71). -/
def takeU32 (t : ByteString) : Option (Word × ByteString) :=
  if t.length < 4 then none else some (rd32 t 0, t.drop 4)

/-- Read a `bytes` operand: a length `L`, then `L` bytes of content (30_encoding.md R71). -/
def takeBytes (t : ByteString) : Option (ByteString × ByteString) :=
  match takeU32 t with
  | none => none
  | some (len, rest) =>
    if rest.length < len.toNat then none else some (rest.take len.toNat, rest.drop len.toNat)

/-- The end of a transaction: bytes left over make it MALFORMED (30_encoding.md R71). -/
def takeEnd {α : Type} (x : α) : ByteString → Option α
  | [] => some x
  | _ :: _ => none

end Sys2Proof.Machine
end

