-- ==== Sys2Proof/Syntax.lean ====
section
/-! DEFINITION. Syntax.lean: the two command ports and the 16 commands, one constructor per row of the opcode table
(30_encoding.md R79), each with the operands of that row in its order. -/

namespace Sys2Proof

/-- The two command ports (20_memory.md R54). -/
inductive Port where
  /-- P0, the host port: accepts every command. -/
  | p0
  /-- P1, the audio-consumer port: accepts the streaming-FIFO commands only. -/
  | p1
deriving DecidableEq, Repr

/-- A command (30_encoding.md R70, R79). A `bytes` operand is the byte string alone: its length prefix is part of the encoding. -/
inductive Instr where
  /-- `CFG_WRITE reg, value`, opcode 0x01 (47_system.md R210). -/
  | cfgWrite (reg : Byte) (value : Word)
  /-- `CFG_READ reg`, opcode 0x02 (47_system.md R211). -/
  | cfgRead (reg : Byte)
  /-- `RESET`, opcode 0x0F (47_system.md R212). -/
  | reset
  /-- `RX_PUSH data`, opcode 0x10 (41_frame_receiver.md R100). -/
  | rxPush (data : ByteString)
  /-- `RX_CLOSE`, opcode 0x11 (41_frame_receiver.md R110). -/
  | rxClose
  /-- `TX_ENCODE receiverId, decodeOpts, useHeader, payload`, opcode 0x20 (42_frame_encoder.md R130). -/
  | txEncode (receiverId decodeOpts useHeader : Byte) (payload : ByteString)
  /-- `RLE_COMPRESS esc, input`, opcode 0x30 (43_rle_codec.md R152). -/
  | rleCompress (esc : Byte) (input : ByteString)
  /-- `RLE_DECOMPRESS esc, expected, input`, opcode 0x31 (43_rle_codec.md R153). -/
  | rleDecompress (esc : Byte) (expected : Word) (input : ByteString)
  /-- `XOR_APPLY key, input`, opcode 0x38 (44_xor_cipher.md R171). -/
  | xorApply (key : Byte) (input : ByteString)
  /-- `CHK_COMPUTE divisor, input`, opcode 0x40 (45_checksum.md R181). -/
  | chkCompute (divisor : Half) (input : ByteString)
  /-- `CHK_VERIFY divisor, expected, input`, opcode 0x41 (45_checksum.md R182). -/
  | chkVerify (divisor : Half) (expected : Byte) (input : ByteString)
  /-- `SB_RESET`, opcode 0x50 (46_streaming_buffer.md R190). -/
  | sbReset
  /-- `SB_APPEND data`, opcode 0x51 (46_streaming_buffer.md R191). -/
  | sbAppend (data : ByteString)
  /-- `SB_READ maxLength`, opcode 0x52 (46_streaming_buffer.md R192). -/
  | sbRead (maxLength : Word)
  /-- `SB_REMOVE_CHUNK offset`, opcode 0x53 (46_streaming_buffer.md R193). -/
  | sbRemoveChunk (offset : Word)
  /-- `SB_READ_POS`, opcode 0x54 (46_streaming_buffer.md R194). -/
  | sbReadPos
deriving DecidableEq, Repr

end Sys2Proof
end

