-- ==== Sys2Proof/WellFormed.lean ====
section
/-! DEFINITION. WellFormed.lean: which commands an encoding can carry. A `bytes` operand carries a 32-bit length prefix, so its
content is 0 to 2^32-1 bytes long (30_encoding.md R71); every scalar operand fits by its type. -/

namespace Sys2Proof

/-- A byte string whose length a `u32` prefix can state (30_encoding.md R71). -/
def ByteString.fits (b : ByteString) : Bool := decide (b.length < 4294967296)

/-- The commands that a transaction can encode: every `bytes` operand has a 32-bit length. -/
def Instr.wellFormed : Instr → Bool
  | .cfgWrite _ _ => true
  | .cfgRead _ => true
  | .reset => true
  | .rxPush data => ByteString.fits data
  | .rxClose => true
  | .txEncode _ _ _ payload => ByteString.fits payload
  | .rleCompress _ input => ByteString.fits input
  | .rleDecompress _ _ input => ByteString.fits input
  | .xorApply _ input => ByteString.fits input
  | .chkCompute _ input => ByteString.fits input
  | .chkVerify _ _ input => ByteString.fits input
  | .sbReset => true
  | .sbAppend data => ByteString.fits data
  | .sbRead _ => true
  | .sbRemoveChunk _ => true
  | .sbReadPos => true

end Sys2Proof
end

