-- ==== Sys2Proof/Decode.lean ====
section
/-! DEFINITION. Decode.lean: the opcode table (30_encoding.md R79), the decoder of a transaction (R74: total, first failing check
decides) and, after it, the encoder. `decodeTableWord` reads a row of spec/opcode_table.json. -/

namespace Sys2Proof

open Sys2Proof.Machine

/-- The 16 opcodes of 30_encoding.md R79. -/
inductive Opcode where
  | cfgWrite | cfgRead | reset | rxPush | rxClose | txEncode | rleCompress | rleDecompress | xorApply | chkCompute | chkVerify
  | sbReset | sbAppend | sbRead | sbRemoveChunk | sbReadPos
deriving DecidableEq, Repr

/-- The operand kinds of 30_encoding.md R71. -/
inductive OperandKind where
  | u8 | u16 | u32 | bytes
deriving DecidableEq, Repr

/-- Why a transaction is not a command of this port (30_encoding.md R74). -/
inductive DecodeError where
  /-- Byte 0 is no opcode accepted on this port. -/
  | illegalOpcode
  /-- The length does not match the opcode's operands. -/
  | malformed
deriving DecidableEq, Repr

/-- All opcodes, in the table's order. -/
def Opcode.all : List Opcode :=
  [.cfgWrite, .cfgRead, .reset, .rxPush, .rxClose, .txEncode, .rleCompress, .rleDecompress, .xorApply, .chkCompute, .chkVerify,
    .sbReset, .sbAppend, .sbRead, .sbRemoveChunk, .sbReadPos]

/-- The opcode byte (30_encoding.md R79). -/
def Opcode.code : Opcode → Byte
  | .cfgWrite => 0x01
  | .cfgRead => 0x02
  | .reset => 0x0F
  | .rxPush => 0x10
  | .rxClose => 0x11
  | .txEncode => 0x20
  | .rleCompress => 0x30
  | .rleDecompress => 0x31
  | .xorApply => 0x38
  | .chkCompute => 0x40
  | .chkVerify => 0x41
  | .sbReset => 0x50
  | .sbAppend => 0x51
  | .sbRead => 0x52
  | .sbRemoveChunk => 0x53
  | .sbReadPos => 0x54

/-- The operands of an opcode, in order (30_encoding.md R79). -/
def Opcode.operands : Opcode → List OperandKind
  | .cfgWrite => [.u8, .u32]
  | .cfgRead => [.u8]
  | .reset => []
  | .rxPush => [.bytes]
  | .rxClose => []
  | .txEncode => [.u8, .u8, .u8, .bytes]
  | .rleCompress => [.u8, .bytes]
  | .rleDecompress => [.u8, .u32, .bytes]
  | .xorApply => [.u8, .bytes]
  | .chkCompute => [.u16, .bytes]
  | .chkVerify => [.u16, .u8, .bytes]
  | .sbReset => []
  | .sbAppend => [.bytes]
  | .sbRead => [.u32]
  | .sbRemoveChunk => [.u32]
  | .sbReadPos => []

/-- The opcodes P1 accepts: the streaming-FIFO commands (20_memory.md R54). -/
def Opcode.onP1 : Opcode → Bool
  | .sbReset | .sbAppend | .sbRead | .sbRemoveChunk | .sbReadPos => true
  | .cfgWrite | .cfgRead | .reset | .rxPush | .rxClose | .txEncode | .rleCompress | .rleDecompress | .xorApply | .chkCompute
  | .chkVerify => false

/-- Whether a port accepts an opcode (20_memory.md R54, 30_encoding.md R79). -/
def Opcode.acceptedOn (op : Opcode) : Port → Bool
  | .p0 => true
  | .p1 => op.onP1

/-- The opcode of a byte; all 8 bits are compared (30_encoding.md R79, R80). -/
def Opcode.ofByte (b : Byte) : Option Opcode := Opcode.all.find? (fun op => op.code == b)

/-- The bytes the operands of these kinds take at the head of `t`; a byte that is not there counts as 0 (30_encoding.md R71). -/
def operandsWidth : List OperandKind → ByteString → Nat
  | [], _ => 0
  | .u8 :: ks, t => 1 + operandsWidth ks (t.drop 1)
  | .u16 :: ks, t => 2 + operandsWidth ks (t.drop 2)
  | .u32 :: ks, t => 4 + operandsWidth ks (t.drop 4)
  | .bytes :: ks, t => 4 + (rd32 t 0).toNat + operandsWidth ks (t.drop (4 + (rd32 t 0).toNat))

/-- The length of a command, learnt from its opcode and its length prefixes (30_encoding.md R70); 0 for an illegal opcode. -/
def commandLength : ByteString → Nat
  | [] => 0
  | b :: rest =>
    match Opcode.ofByte b with
    | none => 0
    | some op => 1 + operandsWidth op.operands rest

/-- Read the operands of an opcode, in the order of 30_encoding.md R79; `none` if the length does not match exactly (R71). -/
def parseOperands (op : Opcode) (t : ByteString) : Option Instr :=
  match op with
  | .cfgWrite => do
    let (reg, t) ← takeU8 t
    let (value, t) ← takeU32 t
    takeEnd (.cfgWrite reg value) t
  | .cfgRead => do
    let (reg, t) ← takeU8 t
    takeEnd (.cfgRead reg) t
  | .reset => takeEnd .reset t
  | .rxPush => do
    let (data, t) ← takeBytes t
    takeEnd (.rxPush data) t
  | .rxClose => takeEnd .rxClose t
  | .txEncode => do
    let (receiverId, t) ← takeU8 t
    let (decodeOpts, t) ← takeU8 t
    let (useHeader, t) ← takeU8 t
    let (payload, t) ← takeBytes t
    takeEnd (.txEncode receiverId decodeOpts useHeader payload) t
  | .rleCompress => do
    let (esc, t) ← takeU8 t
    let (input, t) ← takeBytes t
    takeEnd (.rleCompress esc input) t
  | .rleDecompress => do
    let (esc, t) ← takeU8 t
    let (expected, t) ← takeU32 t
    let (input, t) ← takeBytes t
    takeEnd (.rleDecompress esc expected input) t
  | .xorApply => do
    let (key, t) ← takeU8 t
    let (input, t) ← takeBytes t
    takeEnd (.xorApply key input) t
  | .chkCompute => do
    let (divisor, t) ← takeU16 t
    let (input, t) ← takeBytes t
    takeEnd (.chkCompute divisor input) t
  | .chkVerify => do
    let (divisor, t) ← takeU16 t
    let (expected, t) ← takeU8 t
    let (input, t) ← takeBytes t
    takeEnd (.chkVerify divisor expected input) t
  | .sbReset => takeEnd .sbReset t
  | .sbAppend => do
    let (data, t) ← takeBytes t
    takeEnd (.sbAppend data) t
  | .sbRead => do
    let (maxLength, t) ← takeU32 t
    takeEnd (.sbRead maxLength) t
  | .sbRemoveChunk => do
    let (offset, t) ← takeU32 t
    takeEnd (.sbRemoveChunk offset) t
  | .sbReadPos => takeEnd .sbReadPos t

/-- Decode a transaction presented at a port, in the order of 30_encoding.md R74: the opcode, then the port, then the length. -/
def decode (p : Port) (t : ByteString) : Except DecodeError Instr :=
  match t with
  | [] => .error .illegalOpcode
  | b :: rest =>
    match Opcode.ofByte b with
    | none => .error .illegalOpcode
    | some op =>
      if op.acceptedOn p then
        match parseOperands op rest with
        | none => .error .malformed
        | some i => .ok i
      else .error .illegalOpcode

/-- The opcode of a command. -/
def Instr.opcode : Instr → Opcode
  | .cfgWrite _ _ => .cfgWrite
  | .cfgRead _ => .cfgRead
  | .reset => .reset
  | .rxPush _ => .rxPush
  | .rxClose => .rxClose
  | .txEncode _ _ _ _ => .txEncode
  | .rleCompress _ _ => .rleCompress
  | .rleDecompress _ _ _ => .rleDecompress
  | .xorApply _ _ => .xorApply
  | .chkCompute _ _ => .chkCompute
  | .chkVerify _ _ _ => .chkVerify
  | .sbReset => .sbReset
  | .sbAppend _ => .sbAppend
  | .sbRead _ => .sbRead
  | .sbRemoveChunk _ => .sbRemoveChunk
  | .sbReadPos => .sbReadPos

/-- The operand bytes of a command, in the order of 30_encoding.md R79. -/
def encodeOperands : Instr → ByteString
  | .cfgWrite reg value => [reg] ++ le32 value
  | .cfgRead reg => [reg]
  | .reset => []
  | .rxPush data => encodeBytes data
  | .rxClose => []
  | .txEncode receiverId decodeOpts useHeader payload => [receiverId, decodeOpts, useHeader] ++ encodeBytes payload
  | .rleCompress esc input => [esc] ++ encodeBytes input
  | .rleDecompress esc expected input => [esc] ++ le32 expected ++ encodeBytes input
  | .xorApply key input => [key] ++ encodeBytes input
  | .chkCompute divisor input => le16 divisor ++ encodeBytes input
  | .chkVerify divisor expected input => le16 divisor ++ [expected] ++ encodeBytes input
  | .sbReset => []
  | .sbAppend data => encodeBytes data
  | .sbRead maxLength => le32 maxLength
  | .sbRemoveChunk offset => le32 offset
  | .sbReadPos => []

/-- The transaction of a command: the opcode byte and the operands, with no padding (30_encoding.md R70). -/
def encode (i : Instr) : ByteString := i.opcode.code :: encodeOperands i

/-- `TX_RAW bytes`, the one pseudo-instruction: `TX_ENCODE 0, 0, 0, bytes` (30_encoding.md R86). -/
def Instr.txRaw (payload : ByteString) : Instr := .txEncode 0 0 0 payload

/-- The bytes of an opcode-table word, bit 0 the least significant bit of byte 0. -/
def tableBytes (nbits w : Nat) : ByteString :=
  (List.range ((nbits + 7) / 8)).map (fun k => BitVec.ofNat 8 (w >>> (8 * k)))

/-- The transaction of an opcode-table word: its bytes, then zeros up to the length the command itself states (log 7). -/
def tableTransaction (nbits w : Nat) : ByteString :=
  let given := tableBytes nbits w
  given ++ List.replicate (commandLength given - given.length) 0

/-- The command the decoder reads, at the port that accepts every command, from an opcode-table word whose operand bytes above
`nbits` are zeros. -/
def decodeTableWord (nbits w : Nat) : Option Instr :=
  match decode .p0 (tableTransaction nbits w) with
  | .ok i => some i
  | .error _ => none

end Sys2Proof
end

