-- ==== Sys2Proof/Config.lean ====
section
/-! DEFINITION. Config.lean: what an implementation fixes and what the spec leaves open. The OPEN parameters of 00_scope.md R6 are
the structure `Params` (an argument of the model: every state carries one, and no step changes it; log 1). The free values are
opaque constants: nothing can be proved of their values. -/

namespace Sys2Proof

/-- A capacity or allocation limit: a natural number, or `none` for the spec's infinity (00_scope.md R6). -/
abbrev Limit := Option Nat

/-- The parameters of 00_scope.md R6 that are arguments of the model. -/
structure Params where
  /-- `TEXT_CAP`, the text capacity of a Message record in bytes. -/
  textCap : Nat
  /-- `ACC_CAP`, the capacity of the accumulation buffer. -/
  accCap : Limit
  /-- `MAX_DECODE`, the largest `uncompressedLength` for which a decode buffer can be allocated. -/
  maxDecode : Limit
  /-- `SB_CAP`, the capacity of the streaming FIFO. -/
  sbCap : Limit
deriving DecidableEq, Repr

/-- The parameter values every test vector uses (00_scope.md R6): TEXT_CAP = 32, the rest infinite.
DESIGN CHOICE (log 1), unsafe: a statement about `State.reset` alone is about these values; `State.resetWith` takes any. -/
def Params.default : Params := { textCap := 32, accCap := none, maxDecode := none, sbCap := none }

/-- Who may have something waiting for the block (60_exceptions.md R235). -/
inductive Agent where
  /-- The host, or the audio consumer, with a transaction at its command port. -/
  | port (p : Port)
  /-- The MessageQueue's reader, with a get-next-queued-message request (60_exceptions.md R232). -/
  | queueReader
deriving DecidableEq, Repr

/-- FREE VALUE. Which agent the arbiter prefers at a turn that is reserved for no waiting port, where several agents wait: "the two
ports interleave in any way" (20_memory.md R57). DESIGN CHOICE (log 2), safe: nothing is known of it. -/
opaque Config.grant (turn : Nat) : Option Agent

/-- FREE VALUE. How many turns pass between one turn reserved for a port and the next: fairness sets no bound
(70_reset_and_hazards.md R290). DESIGN CHOICE (log 2), safe: nothing is known of it but that it is finite. -/
opaque Config.patience (block : Nat) : Nat

/-- FREE VALUE. The four count bytes of a QUEUE_SIZE_CHANGED event carried as bytes, for a count that exceeds a `u32`: the spec
states `count:u32` and `count = len(mq)` for an unbounded queue (60_exceptions.md R220, R221, R232). DESIGN CHOICE (log 8), safe. -/
opaque Config.overlongCount (count : Nat) : Word

end Sys2Proof
end

