-- ==== Sys2Proof/Machine/State.lean ====
section
/-! DEFINITION. Machine/State.lean: the state of the block and of its boundary (10_state.md), as plain data, the machine right after
reset, and the two reason types a step could stop with. -/

namespace Sys2Proof.Machine

/-- `rx.state` (10_state.md R24). The source's third state, Dispatching, exists only inside one RX_PUSH. -/
inductive RxState where
  | awaitingHeader
  | awaitingPayload
deriving DecidableEq, Repr

/-- A frame header: the eight fields of 30_encoding.md R75. -/
structure Header where
  signature : Word
  signature2 : Word
  dataLength : Word
  uncompressedLength : Word
  receiverId : Byte
  version : Byte
  decodeOpts : Byte
  encryptionKey : Byte
deriving DecidableEq, Repr

/-- The reasons of an RX_DROP event (60_exceptions.md R225). -/
inductive DropReason where
  | invalidSignature
  | notAddressed
  | checksumMismatch
  | allocationFailure
  | decodeError
  | unsupportedOptions
  | badTextLength
  | accOverflow
deriving DecidableEq, Repr

/-- The events the block raises (60_exceptions.md R220). -/
inductive Event where
  | queueSizeChanged (count : Nat)
  | audioReceived (data : ByteString)
  | audioStreamReceived (data : ByteString)
  | rxDrop (reason : DropReason)
deriving DecidableEq, Repr

/-- The status codes of a response (30_encoding.md R73). -/
inductive Status where
  | ok
  | illegalOpcode
  | malformed
  | badOperand
  | unsupported
  | tooLong
  | rleTruncated
  | rleZeroCount
  | rleOverflow
  | rleShort
  | sbFull
  | sbBadOffset
deriving DecidableEq, Repr

/-- One response: the port it answers on and its bytes, the status byte first (30_encoding.md R72). -/
structure Response where
  port : Port
  bytes : ByteString
deriving DecidableEq, Repr

/-- The RW configuration registers (10_state.md R22). -/
structure Regs where
  /-- `STATION_ID`, index 0x00. -/
  stationId : BitVec 8
  /-- `RLE_ESC`, index 0x01. -/
  rleEsc : BitVec 8
  /-- `CHK_DIV`, index 0x02, legal 1..256. -/
  chkDiv : BitVec 9
  /-- `TX_KEY`, index 0x03. -/
  txKey : BitVec 8
  /-- `TX_PRIORITY`, index 0x04. -/
  txPriority : BitVec 8
  /-- `TX_SEQ`, index 0x05. -/
  txSeq : BitVec 32
  /-- `TX_TIME`, index 0x06. -/
  txTime : BitVec 32
deriving DecidableEq, Repr

/-- The receiver's state (10_state.md R24 to R26). -/
structure Rx where
  /-- `rx.state`. -/
  state : RxState
  /-- `rx.acc`, oldest byte first. -/
  acc : ByteString
  /-- `rx.hdr`, the held header. -/
  hdr : Option Header
deriving DecidableEq, Repr

/-- The streaming FIFO's state (10_state.md R28). -/
structure Sb where
  /-- `sb.data`; its length is the write cursor. -/
  data : ByteString
  /-- `sb.rd`, the read cursor. -/
  rd : Nat
deriving DecidableEq, Repr

/-- The machine: the block's state (10_state.md sections 2 to 4), the state at its boundary (R32), and the model's own fields for
the parameters (00_scope.md R6; log 1) and for what stands at the ports (20_memory.md R54, 30_encoding.md R72; logs 2 to 4). -/
structure State where
  /-- The parameters; no step changes them. -/
  params : Params
  regs : Regs
  rx : Rx
  sb : Sb
  /-- The TX byte stream (10_state.md R32). -/
  tx : ByteString
  /-- The event stream (10_state.md R32). -/
  ev : List Event
  /-- The message queue (10_state.md R32). -/
  mq : List Record
  /-- The transactions presented at P0 and not yet taken, oldest first. -/
  p0 : List ByteString
  /-- The transactions presented at P1 and not yet taken, oldest first. -/
  p1 : List ByteString
  /-- The get-next-queued-message requests not yet served (60_exceptions.md R232). -/
  mqReads : Nat
  /-- The port whose command is being performed. -/
  port : Port
  /-- How many agents have been served: the argument of the free arbitration value. -/
  turn : Nat
  /-- Every response given, in the total order of 20_memory.md R57. -/
  responses : List Response
  /-- Every answer to a get-next-queued-message request, `none` for "empty" (60_exceptions.md R232). -/
  mqAnswers : List (Option Record)
deriving DecidableEq, Repr

/-- The block has no trap and no fault: "No behaviour of this block is a `fault` in the sense of an exception that changes control
flow" (93_implementation_defined.md, after I33). Every failure is a status or an event, so this type has no constructor (log 11). -/
inductive Fault where
deriving DecidableEq, Repr

/-- Why a command is refused by the model (not by the block, whose refusals are statuses). -/
inductive Refusal where
  /-- Raised by `exec` for a command that has no meaning yet; safe. No arm of this model raises it. -/
  | notModelled (mnemonic : String)
deriving DecidableEq, Repr

/-- The registers' reset values (10_state.md R22, R33). -/
def Regs.reset : Regs :=
  { stationId := 0x00, rleEsc := 0x1B, chkDiv := 256, txKey := 0x00, txPriority := 0x00, txSeq := 0, txTime := 0 }

/-- The receiver's reset value (10_state.md R33). -/
def Rx.reset : Rx := { state := .awaitingHeader, acc := [], hdr := none }

/-- The streaming FIFO's reset value (10_state.md R33). -/
def Sb.reset : Sb := { data := [], rd := 0 }

/-- The start of a run for given parameters: power-on reset, the environment's streams empty (70_reset_and_hazards.md R260, R261),
nothing presented at a port (log 3). -/
def State.resetWith (params : Params) : State :=
  { params := params, regs := Regs.reset, rx := Rx.reset, sb := Sb.reset, tx := [], ev := [], mq := [],
    p0 := [], p1 := [], mqReads := 0, port := .p0, turn := 0, responses := [], mqAnswers := [] }

/-- The machine right after reset, with the parameters of the test vectors (00_scope.md R6; log 1). -/
def State.reset : State := State.resetWith Params.default

end Sys2Proof.Machine
end

