-- ==== Sys2Proof/Machine/Flags.lean ====
section
/-! DEFINITION. Machine/Flags.lean: the block has no condition codes or flags (10_state.md R31). What a command reports instead is
the status byte of its response (30_encoding.md R73); what the receiver reports is an event with its codes (60_exceptions.md R220,
R225). This file holds those codes. -/

namespace Sys2Proof.Machine

/-- The status codes (30_encoding.md R73). -/
def Status.code : Status → Byte
  | .ok => 0x00
  | .illegalOpcode => 0x01
  | .malformed => 0x02
  | .badOperand => 0x03
  | .unsupported => 0x04
  | .tooLong => 0x05
  | .rleTruncated => 0x06
  | .rleZeroCount => 0x07
  | .rleOverflow => 0x08
  | .rleShort => 0x09
  | .sbFull => 0x0A
  | .sbBadOffset => 0x0B

/-- The codes of the drop reasons (60_exceptions.md R225). -/
def DropReason.code : DropReason → Byte
  | .invalidSignature => 0x01
  | .notAddressed => 0x02
  | .checksumMismatch => 0x03
  | .allocationFailure => 0x04
  | .decodeError => 0x05
  | .unsupportedOptions => 0x06
  | .badTextLength => 0x07
  | .accOverflow => 0x08

/-- The codes of the events (60_exceptions.md R220). -/
def Event.code : Event → Byte
  | .queueSizeChanged _ => 0x01
  | .audioReceived _ => 0x02
  | .audioStreamReceived _ => 0x03
  | .rxDrop _ => 0x10

end Sys2Proof.Machine
end

