-- ==== Sys2Proof/Machine/Operands.lean ====
section
/-! DEFINITION. Machine/Operands.lean: how operands and results are read: the register map of 10_state.md R22, the fields of a
decodeOpts byte (30_encoding.md R76), the legal divisors (45_checksum.md R181), the results of a response (30_encoding.md R72) and
an event carried as bytes (60_exceptions.md R220). -/

namespace Sys2Proof.Machine

/-! ### Results, and events as bytes -/

/-- The results a response can carry (30_encoding.md R72, R79). -/
inductive Result where
  | u8 (v : Byte)
  | u32 (v : Word)
  | bytes (v : ByteString)
deriving DecidableEq, Repr

/-- A result as bytes (30_encoding.md R71, R72). -/
def Result.encode : Result → ByteString
  | .u8 v => [v]
  | .u32 v => le32 v
  | .bytes v => encodeBytes v

/-- The bytes of a response: the status code, then the results in order (30_encoding.md R72). -/
def responseBytes (st : Status) (results : List Result) : ByteString := st.code :: results.flatMap Result.encode

/-- The status a transaction that does not decode is answered with (30_encoding.md R74). -/
def decodeStatus : DecodeError → Status
  | .illegalOpcode => .illegalOpcode
  | .malformed => .malformed

/-- The `count:u32` of an event carried as bytes; a free value where the count exceeds a `u32` (60_exceptions.md R220; log 8). -/
def countWord (n : Nat) : Word := if n ≤ maxU32 then BitVec.ofNat 32 n else Config.overlongCount n

/-- An event carried as bytes: its code byte, then its payload (60_exceptions.md R220). -/
def Event.bytes (e : Event) : ByteString :=
  e.code ::
    match e with
    | .queueSizeChanged count => le32 (countWord count)
    | .audioReceived data => encodeBytes data
    | .audioStreamReceived data => encodeBytes data
    | .rxDrop reason => [reason.code]

/-! ### The register map -/

/-- The registers of 10_state.md R22. -/
inductive Reg where
  | stationId | rleEsc | chkDiv | txKey | txPriority | txSeq | txTime
  | rxState | rxAccLen | rxPendLen | sbTail | sbRd
deriving DecidableEq, Repr

/-- All registers, in index order. -/
def Reg.all : List Reg :=
  [.stationId, .rleEsc, .chkDiv, .txKey, .txPriority, .txSeq, .txTime, .rxState, .rxAccLen, .rxPendLen, .sbTail, .sbRd]

/-- The index of a register (10_state.md R22). -/
def Reg.index : Reg → Byte
  | .stationId => 0x00
  | .rleEsc => 0x01
  | .chkDiv => 0x02
  | .txKey => 0x03
  | .txPriority => 0x04
  | .txSeq => 0x05
  | .txTime => 0x06
  | .rxState => 0x10
  | .rxAccLen => 0x11
  | .rxPendLen => 0x12
  | .sbTail => 0x20
  | .sbRd => 0x21

/-- The register of an index; every index not in the table is reserved (10_state.md R22). -/
def Reg.ofIndex (b : Byte) : Option Reg := Reg.all.find? (fun r => r.index == b)

/-- The access column of 10_state.md R22: RW, or read-only. -/
def Reg.writable : Reg → Bool
  | .stationId | .rleEsc | .chkDiv | .txKey | .txPriority | .txSeq | .txTime => true
  | .rxState | .rxAccLen | .rxPendLen | .sbTail | .sbRd => false

/-- The legal-value column of 10_state.md R22, for a RW register. -/
def Reg.legal : Reg → Word → Bool
  | .stationId, v | .rleEsc, v | .txKey, v | .txPriority, v => decide (v.toNat ≤ 255)
  | .chkDiv, v => decide (1 ≤ v.toNat ∧ v.toNat ≤ 256)
  | .txSeq, _ | .txTime, _ => true
  | .rxState, _ | .rxAccLen, _ | .rxPendLen, _ | .sbTail, _ | .sbRd, _ => false

/-- A length or cursor as its `u32` view, saturating at 2^32-1 (10_state.md R22). -/
def saturate32 (n : Nat) : Word := BitVec.ofNat 32 (min n maxU32)

/-- What a register reads as, zero-extended to 32 bits (10_state.md R22, R23; 47_system.md R211). -/
def State.readReg (s : State) : Reg → Word
  | .stationId => s.regs.stationId.setWidth 32
  | .rleEsc => s.regs.rleEsc.setWidth 32
  | .chkDiv => s.regs.chkDiv.setWidth 32
  | .txKey => s.regs.txKey.setWidth 32
  | .txPriority => s.regs.txPriority.setWidth 32
  | .txSeq => s.regs.txSeq
  | .txTime => s.regs.txTime
  | .rxState =>
    match s.rx.state with
    | .awaitingHeader => 0
    | .awaitingPayload => 1
  | .rxAccLen => saturate32 s.rx.acc.length
  | .rxPendLen =>
    match s.rx.state, s.rx.hdr with
    | .awaitingPayload, some h => h.dataLength
    | .awaitingPayload, none => 0
    | .awaitingHeader, _ => 0
  | .sbTail => saturate32 s.sb.data.length
  | .sbRd => saturate32 s.sb.rd

/-- The registers with one RW register written; a legal value fits the register, so nothing is truncated (47_system.md R210).
A read-only register is not stored and keeps what it views. -/
def Regs.write (r : Regs) : Reg → Word → Regs
  | .stationId, v => { r with stationId := v.setWidth 8 }
  | .rleEsc, v => { r with rleEsc := v.setWidth 8 }
  | .chkDiv, v => { r with chkDiv := v.setWidth 9 }
  | .txKey, v => { r with txKey := v.setWidth 8 }
  | .txPriority, v => { r with txPriority := v.setWidth 8 }
  | .txSeq, v => { r with txSeq := v }
  | .txTime, v => { r with txTime := v }
  | .rxState, _ | .rxAccLen, _ | .rxPendLen, _ | .sbTail, _ | .sbRd, _ => r

/-! ### decodeOpts, limits and divisors -/

/-- The message class, `decodeOpts[1:0]` (30_encoding.md R76, R77). -/
inductive MsgClass where
  | text | audio | audioStream | reserved
deriving DecidableEq, Repr

/-- The compression, `decodeOpts[3:2]` (30_encoding.md R76, R78). -/
inductive Compression where
  | none | rle | huff | reserved
deriving DecidableEq, Repr

/-- The class field of a decodeOpts byte (30_encoding.md R76). -/
def optsClass (o : Byte) : MsgClass :=
  if o.extractLsb' 0 2 = 0 then .text
  else if o.extractLsb' 0 2 = 1 then .audio
  else if o.extractLsb' 0 2 = 2 then .audioStream
  else .reserved

/-- The compression field of a decodeOpts byte (30_encoding.md R76). -/
def optsCompression (o : Byte) : Compression :=
  if o.extractLsb' 2 2 = 0 then .none
  else if o.extractLsb' 2 2 = 1 then .rle
  else if o.extractLsb' 2 2 = 2 then .huff
  else .reserved

/-- The encryption field of a decodeOpts byte: whether XOR is on (30_encoding.md R76, R82). -/
def optsXor (o : Byte) : Bool := o.getLsbD 4

/-- The reserved field of a decodeOpts byte, `decodeOpts[7:5]` (30_encoding.md R76, R82). -/
def optsReserved (o : Byte) : BitVec 3 := o.extractLsb' 5 3

/-- The broadcast classes (30_encoding.md R77). -/
def MsgClass.broadcast : MsgClass → Bool
  | .audio | .audioStream => true
  | .text | .reserved => false

/-- The options no unit of the block implements: class 3, HUFF and compression 3 (30_encoding.md R77, R78). -/
def optsUnsupported (o : Byte) : Bool :=
  optsClass o == .reserved || optsCompression o == .huff || optsCompression o == .reserved

/-- Whether an amount is within a limit; infinity admits every amount (00_scope.md R6). -/
def admits : Limit → Nat → Bool
  | .none, _ => true
  | .some c, n => decide (n ≤ c)

/-- The legal divisors of the checksum commands, 1..256 (45_checksum.md R181). -/
def legalDivisor (d : Half) : Bool := decide (d.toNat ≠ 0 ∧ d.toNat ≤ 256)

end Sys2Proof.Machine
end

