-- ==== Sys2Proof/Machine/Ops.lean ====
section
/-! DEFINITION. Machine/Ops.lean: the named operations over the state. Reporting an error is ONE operation for commands (`State.raise`,
60_exceptions.md R224, R228) and one for the receiver (`State.drop`, R225, R226); no return from an error exists (R229). -/

namespace Sys2Proof.Machine

/-! ### Responses -/

/-- Answer the command being performed, on the port it came from (30_encoding.md R72). -/
def State.respond (s : State) (st : Status) (results : List Result) : State :=
  { s with responses := s.responses ++ [{ port := s.port, bytes := responseBytes st results }] }

/-- `return v…`: the command ends with status OK and its results (00_scope.md R8). -/
def State.ret (s : State) (results : List Result) : State := s.respond .ok results

/-- `raise STATUS`: the command ends with that status and nothing else changes: no state, no event, no TX byte, no handler, no
saved cause (00_scope.md R8, 30_encoding.md R73, 60_exceptions.md R224, R228). -/
def State.raise (s : State) (st : Status) : State := s.respond st []

/-! ### Events and streams -/

/-- `emit E`: append an event (60_exceptions.md R220). -/
def State.emit (s : State) (e : Event) : State := { s with ev := s.ev ++ [e] }

/-- `drop REASON`: the receiver reports a rejected frame and goes on (60_exceptions.md R225, R226). -/
def State.drop (s : State) (reason : DropReason) : State := s.emit (.rxDrop reason)

/-- `tx_emit(b)`: append bytes to the TX stream, contiguously (20_memory.md R52). -/
def State.txEmit (s : State) (b : ByteString) : State := { s with tx := s.tx ++ b }

/-- Enqueue a record and notify (41_frame_receiver.md R106, 60_exceptions.md R221, R232): the count is the length after the append. -/
def State.enqueue (s : State) (d : Record) : State :=
  ({ s with mq := s.mq ++ [d] } : State).emit (.queueSizeChanged (s.mq.length + 1))

/-! ### The block's buffers and registers -/

/-- Replace the receiver's state. -/
def State.setRx (s : State) (rx : Rx) : State := { s with rx := rx }

/-- `rx.acc <- acc`, the rest of the receiver kept. -/
def State.setAcc (s : State) (acc : ByteString) : State := { s with rx := { s.rx with acc := acc } }

/-- Replace the streaming FIFO's state; all of a FIFO command's change in one step (20_memory.md R55). -/
def State.setSb (s : State) (sb : Sb) : State := { s with sb := sb }

/-- Write one register (47_system.md R210). -/
def State.writeReg (s : State) (r : Reg) (v : Word) : State := { s with regs := s.regs.write r v }

/-- Power-on reset and `RESET`: every piece of block state to its reset value; `tx`, `ev`, `mq` and what stands at the ports are not
the block's (70_reset_and_hazards.md R260, R261; 47_system.md R212). -/
def State.resetBlock (s : State) : State := { s with regs := Regs.reset, rx := Rx.reset, sb := Sb.reset }

/-! ### What stands at the ports (20_memory.md R54, R57) -/

/-- The host presents a transaction at a port, behind those already there (20_memory.md R54). -/
def State.issue (s : State) (p : Port) (t : ByteString) : State :=
  match p with
  | .p0 => { s with p0 := s.p0 ++ [t] }
  | .p1 => { s with p1 := s.p1 ++ [t] }

/-- The host asks for the next queued message (60_exceptions.md R232). -/
def State.requestMessage (s : State) : State := { s with mqReads := s.mqReads + 1 }

/-- The transactions waiting at a port. -/
def State.pending (s : State) : Port → List ByteString
  | .p0 => s.p0
  | .p1 => s.p1

/-- The transactions waiting at a port, replaced. -/
def State.setPending (s : State) : Port → List ByteString → State
  | .p0, q => { s with p0 := q }
  | .p1, q => { s with p1 := q }

/-- The agents that have something waiting. -/
def State.waiting (s : State) : List Agent :=
  (if s.p0.isEmpty then [] else [.port .p0]) ++ (if s.p1.isEmpty then [] else [.port .p1])
    ++ (if s.mqReads = 0 then [] else [.queueReader])

/-- The arbiter's rota: turns come in blocks of free length, and this is the block a turn lies in and how many turns of the block
follow it (70_reset_and_hazards.md R290; log 2). -/
def rota : Nat → Nat × Nat
  | 0 => (0, Config.patience 0)
  | n + 1 =>
    match rota n with
    | (block, 0) => (block + 1, Config.patience (block + 1))
    | (block, left + 1) => (block, left)

/-- The port a block ends in favour of: the two ports in turn, so that both are served fairly (70_reset_and_hazards.md R290). -/
def blockPort (block : Nat) : Port := if block % 2 = 0 then .p0 else .p1

/-- The port a turn is reserved for: the last turn of a block is; the turns before it are free. -/
def reservedFor (turn : Nat) : Option Port :=
  match rota turn with
  | (block, 0) => some (blockPort block)
  | (_, _ + 1) => none

/-- A wish of the arbiter that can be met: the agent it names is waiting. -/
def honoured (waiting : List Agent) (wish : Option Agent) : Option Agent := wish.filter waiting.contains

/-- The agent served next. Where several wait: the port the turn is reserved for, if it waits (both ports are served fairly,
70_reset_and_hazards.md R290); else the agent the free value `Config.grant` names, if it waits (the interleaving is left open,
20_memory.md R57); else the first that waits (log 2). -/
def State.granted (s : State) : Option Agent :=
  match s.waiting with
  | [] => none
  | [a] => some a
  | a :: b :: rest =>
    some (((honoured (a :: b :: rest) ((reservedFor s.turn).map .port)).or
      (honoured (a :: b :: rest) (Config.grant s.turn))).getD a)

/-- A port takes its oldest transaction (20_memory.md R54): the transaction, and the state in which its command is performed. -/
def State.take (s : State) (p : Port) : Option (ByteString × State) :=
  match s.pending p with
  | [] => none
  | t :: q => some (t, { s.setPending p q with port := p, turn := s.turn + 1 })

/-- The host's get-next-queued-message: the head of `mq`, removed, or "empty"; no event (60_exceptions.md R232). -/
def State.serveMessage (s : State) : State :=
  { s with mq := s.mq.drop 1, mqAnswers := s.mqAnswers ++ [s.mq.head?], mqReads := s.mqReads - 1, turn := s.turn + 1 }

end Sys2Proof.Machine
end

