-- ==== Sys2Proof/Machine/Checksum.lean ====
section
/-! DEFINITION. Machine/Checksum.lean: the checksum accumulator (45_checksum.md) and its two commands. -/

namespace Sys2Proof.Machine

/-- The sum of the bytes, over the naturals (45_checksum.md R180). -/
def byteSum : ByteString → Nat
  | [] => 0
  | b :: rest => b.toNat + byteSum rest

/-- `ChecksumCompute(x, d)`, for `1 ≤ d ≤ 256` (45_checksum.md R180). -/
def checksumCompute (x : ByteString) (d : Nat) : Byte := BitVec.ofNat 8 (byteSum x % d)

/-- `CHK_COMPUTE divisor, input` (45_checksum.md R181). -/
def execChkCompute (divisor : Half) (input : ByteString) (s : State) : Host.Outcome State Fault Refusal :=
  if legalDivisor divisor then .next (s.ret [.u8 (checksumCompute input divisor.toNat)])
  else .next (s.raise .badOperand)

/-- `CHK_VERIFY divisor, expected, input`: an equality test, which changes nothing (45_checksum.md R182). -/
def execChkVerify (divisor : Half) (expected : Byte) (input : ByteString) (s : State) : Host.Outcome State Fault Refusal :=
  if legalDivisor divisor then .next (s.ret [.u8 (if checksumCompute input divisor.toNat = expected then 1 else 0)])
  else .next (s.raise .badOperand)

end Sys2Proof.Machine
end

