-- ==== Sys2Proof/Machine/Rle.lean ====
section
/-! DEFINITION. Machine/Rle.lean: the run-length codec (43_rle_codec.md) and its two commands. -/

namespace Sys2Proof.Machine

/-- `RLE_MIN_RUN` (00_scope.md R6). -/
def rleMinRun : Nat := 4

/-- `RLE_MAX_COUNT` (00_scope.md R6). -/
def rleMaxCount : Nat := 255

/-- What the compressor emits for `n` equal bytes `b`: a run token, or literals (43_rle_codec.md R150, 30_encoding.md R85). -/
def rleItem (e b : Byte) (n : Nat) : ByteString :=
  if b = e ∨ rleMinRun ≤ n then [e, BitVec.ofNat 8 n, b] else List.replicate n b

/-- The compressor's scan with a run of `n` bytes `b` already counted: the run grows while the next byte is equal and the count
is below `RLE_MAX_COUNT`, and is emitted otherwise (43_rle_codec.md R150). -/
def rleScan (e b : Byte) (n : Nat) : ByteString → ByteString
  | [] => rleItem e b n
  | c :: rest =>
    if c = b ∧ n < rleMaxCount then rleScan e b (n + 1) rest
    else rleItem e b n ++ rleScan e c 1 rest

/-- `RleCompress(x, e)` (43_rle_codec.md R150). -/
def rleCompress (x : ByteString) (e : Byte) : ByteString :=
  match x with
  | [] => []
  | b :: rest => rleScan e b 1 rest

/-- The decoder's loop, `out` being what is decoded so far; the length check follows each item, so the first error in scan order
is returned (43_rle_codec.md R151). -/
def rleExpand (e : Byte) (limit : Nat) (out : ByteString) : ByteString → Except Status ByteString
  | [] => if out.length < limit then .error .rleShort else .ok out
  | b :: rest =>
    if b ≠ e then
      if limit < (out ++ [b]).length then .error .rleOverflow else rleExpand e limit (out ++ [b]) rest
    else
      match rest with
      | n :: v :: rest' =>
        if n = 0 then .error .rleZeroCount
        else if limit < (out ++ List.replicate n.toNat v).length then .error .rleOverflow
        else rleExpand e limit (out ++ List.replicate n.toNat v) rest'
      | [_] => .error .rleTruncated
      | [] => .error .rleTruncated

/-- `RleDecompress(y, e, N)` (43_rle_codec.md R151). -/
def rleDecompress (y : ByteString) (e : Byte) (limit : Nat) : Except Status ByteString := rleExpand e limit [] y

/-- `RLE_COMPRESS esc, input` (43_rle_codec.md R152). -/
def execRleCompress (esc : Byte) (input : ByteString) (s : State) : Host.Outcome State Fault Refusal :=
  if (rleCompress input esc).length > maxU32 then .next (s.raise .tooLong)
  else .next (s.ret [.bytes (rleCompress input esc)])

/-- `RLE_DECOMPRESS esc, expected, input` (43_rle_codec.md R153). -/
def execRleDecompress (esc : Byte) (expected : Word) (input : ByteString) (s : State) : Host.Outcome State Fault Refusal :=
  match rleDecompress input esc expected.toNat with
  | .error st => .next (s.raise st)
  | .ok out => .next (s.ret [.bytes out])

end Sys2Proof.Machine
end

