-- ==== Sys2Proof/Machine/Wire.lean ====
section
/-! DEFINITION. Machine/Wire.lean: the frame header and the Message record on the wire (30_encoding.md R75, R81, R83, R84). -/

namespace Sys2Proof.Machine

/-- `HDR_LEN` (00_scope.md R6). -/
def hdrLen : Nat := 20

/-- `SIG` (00_scope.md R6). -/
def sig : Word := 0xDEADBEEF

/-- `HDR_VERSION` (00_scope.md R6, 30_encoding.md R83). -/
def hdrVersion : Byte := 1

/-- `MSG_LEN`, the size of a Message record (00_scope.md R6, 30_encoding.md R84). -/
def msgLen (p : Params) : Nat := 12 + p.textCap

/-- `parseHeader(h)`, for the first 20 bytes of a byte string (30_encoding.md R75). -/
def parseHeader (h : ByteString) : Header :=
  { signature := rd32 h 0
    signature2 := rd32 h 4
    dataLength := rd32 h 8
    uncompressedLength := rd32 h 12
    receiverId := byteAt h 16
    version := byteAt h 17
    decodeOpts := byteAt h 18
    encryptionKey := byteAt h 19 }

/-- A header as its 20 bytes, packed in the order of 30_encoding.md R75. -/
def Header.bytes (h : Header) : ByteString :=
  le32 h.signature ++ le32 h.signature2 ++ le32 h.dataLength ++ le32 h.uncompressedLength
    ++ [h.receiverId, h.version, h.decodeOpts, h.encryptionKey]

/-- The signature test: both fields equal the constant (41_frame_receiver.md R103). -/
def Header.signed (h : Header) : Bool := h.signature == sig && h.signature == h.signature2

/-- The address test: this station, or a broadcast class (41_frame_receiver.md R103). -/
def Header.addressedTo (h : Header) (station : Byte) : Bool :=
  h.receiverId == station || (optsClass h.decodeOpts).broadcast

end Sys2Proof.Machine
end

