-- ==== Sys2Proof/Machine/Xor.lean ====
section
/-! DEFINITION. Machine/Xor.lean: the XOR cipher core (44_xor_cipher.md) and its command. -/

namespace Sys2Proof.Machine

/-- `XorApply(x, k)`: every byte XORed with the same key (44_xor_cipher.md R170). -/
def xorBytes (x : ByteString) (k : Byte) : ByteString := x.map (fun b => b ^^^ k)

/-- `XOR_APPLY key, input` (44_xor_cipher.md R171). -/
def execXorApply (key : Byte) (input : ByteString) (s : State) : Host.Outcome State Fault Refusal :=
  .next (s.ret [.bytes (xorBytes input key)])

end Sys2Proof.Machine
end

