-- ==== Sys2Proof/Machine/Encoder.lean ====
section
/-! DEFINITION. Machine/Encoder.lean: the frame encoder (42_frame_encoder.md) and its command. -/

namespace Sys2Proof.Machine

/-- The text field: the payload truncated or zero-padded to `TEXT_CAP` bytes (42_frame_encoder.md R133). -/
def textField (cap : Nat) (payload : ByteString) : ByteString := (payload ++ List.replicate cap 0).take cap

/-- A record without its checksum field (30_encoding.md R84, 42_frame_encoder.md R133). -/
def recordBody (params : Params) (r : Regs) (receiverId : Byte) (payload : ByteString) : ByteString :=
  [receiverId, r.stationId, r.txPriority] ++ le32 r.txSeq ++ le32 r.txTime ++ textField params.textCap payload

/-- `BuildMessage(receiverId, payload)` (42_frame_encoder.md R133). -/
def buildMessage (params : Params) (r : Regs) (receiverId : Byte) (payload : ByteString) : ByteString :=
  recordBody params r receiverId payload ++ [checksumCompute (recordBody params r receiverId payload) r.chkDiv.toNat]

/-- What the encoder compresses: the record for TEXT, the payload for the audio classes (42_frame_encoder.md R131). -/
def rawPayload (params : Params) (r : Regs) (receiverId opts : Byte) (payload : ByteString) : ByteString :=
  if optsClass opts = .text then buildMessage params r receiverId payload else payload

/-- The payload after compression, before the cipher (42_frame_encoder.md R131). -/
def framedBody (params : Params) (r : Regs) (receiverId opts : Byte) (payload : ByteString) : ByteString :=
  if optsCompression opts = .rle then rleCompress (rawPayload params r receiverId opts payload) r.rleEsc
  else rawPayload params r receiverId opts payload

/-- The key the frame is ciphered with and carries: `TX_KEY`, or 0 where XOR is off (42_frame_encoder.md R131, 30_encoding.md R82). -/
def frameKey (r : Regs) (opts : Byte) : Byte := if optsXor opts then r.txKey else 0x00

/-- The header of a frame (42_frame_encoder.md R131, R132; 30_encoding.md R83). -/
def frameHeader (params : Params) (r : Regs) (receiverId opts : Byte) (payload : ByteString) : Header :=
  { signature := sig
    signature2 := sig
    dataLength := lengthWord (framedBody params r receiverId opts payload).length
    uncompressedLength := lengthWord (rawPayload params r receiverId opts payload).length
    receiverId := receiverId
    version := hdrVersion
    decodeOpts := opts
    encryptionKey := frameKey r opts }

/-- The payload as it goes on the wire (42_frame_encoder.md R131). -/
def wirePayload (params : Params) (r : Regs) (receiverId opts : Byte) (payload : ByteString) : ByteString :=
  if optsXor opts then xorBytes (framedBody params r receiverId opts payload) r.txKey
  else framedBody params r receiverId opts payload

/-- The whole wire frame: header, then payload (30_encoding.md R81, 42_frame_encoder.md R131). -/
def wireFrame (params : Params) (r : Regs) (receiverId opts : Byte) (payload : ByteString) : ByteString :=
  (frameHeader params r receiverId opts payload).bytes ++ wirePayload params r receiverId opts payload

/-- The options the encoder refuses: those no unit implements, and any reserved bit (42_frame_encoder.md R131). -/
def encoderRefuses (opts : Byte) : Bool := optsUnsupported opts || optsReserved opts != 0

/-- `TX_SEQ` after a frame: incremented modulo 2^32 after a TEXT frame, kept after an audio frame (42_frame_encoder.md R134). -/
def Regs.afterFrame (r : Regs) (opts : Byte) : Regs :=
  if optsClass opts = .text then { r with txSeq := r.txSeq + 1 } else r

/-- `EncodeFramed(receiverId, opts, payload)` (42_frame_encoder.md R131): options, then length, then emission. -/
def encodeFramed (receiverId opts : Byte) (payload : ByteString) (s : State) : State :=
  if encoderRefuses opts then s.raise .unsupported
  else if hdrLen + (framedBody s.params s.regs receiverId opts payload).length > maxU32 then s.raise .tooLong
  else
    ({ s.txEmit (wireFrame s.params s.regs receiverId opts payload) with regs := s.regs.afterFrame opts } : State).ret
      [.u32 (lengthWord (hdrLen + (framedBody s.params s.regs receiverId opts payload).length))]

/-- `TX_ENCODE receiverId, decodeOpts, useHeader, payload` (42_frame_encoder.md R130; raw mode R137). -/
def execTxEncode (receiverId decodeOpts useHeader : Byte) (payload : ByteString) (s : State) :
    Host.Outcome State Fault Refusal :=
  if useHeader = 0 then .next ((s.txEmit payload).ret [.u32 (lengthWord payload.length)])
  else if useHeader = 1 then .next (encodeFramed receiverId decodeOpts payload s)
  else .next (s.raise .badOperand)

end Sys2Proof.Machine
end

