-- ==== Sys2Proof/Machine/Fifo.lean ====
section
/-! DEFINITION. Machine/Fifo.lean: the dual-cursor streaming FIFO (46_streaming_buffer.md) and its five commands. -/

namespace Sys2Proof.Machine

/-- How many bytes an `SB_READ` returns: `min(maxLength, len(sb.data) - sb.rd)` (46_streaming_buffer.md R192). -/
def Sb.readCount (b : Sb) (maxLength : Nat) : Nat := min maxLength (b.data.length - b.rd)

/-- The bytes an `SB_READ` returns: `sb.data[sb.rd : sb.rd + n)` (46_streaming_buffer.md R192). -/
def Sb.readBytes (b : Sb) (maxLength : Nat) : ByteString := (b.data.drop b.rd).take (b.readCount maxLength)

/-- The FIFO after an `SB_READ`: the read cursor advances by the bytes actually read (46_streaming_buffer.md R192). -/
def Sb.afterRead (b : Sb) (maxLength : Nat) : Sb := { b with rd := b.rd + b.readCount maxLength }

/-- The FIFO after its first `offset` bytes are discarded: the read cursor shifts with the data, or becomes 0 where every byte
before it is discarded (46_streaming_buffer.md R193). -/
def Sb.removeChunk (b : Sb) (offset : Nat) : Sb :=
  { data := b.data.drop offset, rd := if b.rd ≤ offset then 0 else b.rd - offset }

/-- `SB_RESET` (46_streaming_buffer.md R190). -/
def execSbReset (s : State) : Host.Outcome State Fault Refusal :=
  .next ((s.setSb { data := [], rd := 0 }).ret [])

/-- `SB_APPEND data`: all or nothing (46_streaming_buffer.md R191). -/
def execSbAppend (data : ByteString) (s : State) : Host.Outcome State Fault Refusal :=
  if admits s.params.sbCap (s.sb.data.length + data.length) then
    .next ((s.setSb { data := s.sb.data ++ data, rd := s.sb.rd }).ret [])
  else .next (s.raise .sbFull)

/-- `SB_READ maxLength` (46_streaming_buffer.md R192). -/
def execSbRead (maxLength : Word) (s : State) : Host.Outcome State Fault Refusal :=
  .next ((s.setSb (s.sb.afterRead maxLength.toNat)).ret [.bytes (s.sb.readBytes maxLength.toNat)])

/-- `SB_REMOVE_CHUNK offset` (46_streaming_buffer.md R193). -/
def execSbRemoveChunk (offset : Word) (s : State) : Host.Outcome State Fault Refusal :=
  if offset.toNat > s.sb.data.length then .next (s.raise .sbBadOffset)
  else .next ((s.setSb (s.sb.removeChunk offset.toNat)).ret [])

/-- `SB_READ_POS`: the read cursor, saturated at 2^32-1 (46_streaming_buffer.md R194). -/
def execSbReadPos (s : State) : Host.Outcome State Fault Refusal :=
  .next (s.ret [.u32 (saturate32 s.sb.rd)])

end Sys2Proof.Machine
end

