-- ==== Sys2Proof/Machine/Receiver.lean ====
section
/-! DEFINITION. Machine/Receiver.lean: the frame receiver (41_frame_receiver.md) and its two commands. -/

namespace Sys2Proof.Machine

/-- Whether a stage of the drain loop progressed (41_frame_receiver.md R101). -/
inductive Stage where
  | wait
  | progress
deriving DecidableEq, Repr

/-- `DispatchText(d)` (41_frame_receiver.md R106). -/
def dispatchText (d : ByteString) (s : State) : State :=
  if d.length ≠ msgLen s.params then s.drop .badTextLength
  else if checksumCompute (d.take (msgLen s.params - 1)) s.regs.chkDiv.toNat = byteAt d (msgLen s.params - 1) then s.enqueue d
  else s.drop .checksumMismatch

/-- Classify and dispatch a decoded payload (41_frame_receiver.md R105 to R108). Class 3 was dropped before this point, with
UNSUPPORTED_OPTIONS, and is dropped so here. -/
def dispatch (d : ByteString) (h : Header) (s : State) : State :=
  match optsClass h.decodeOpts with
  | .text => dispatchText d s
  | .audio => s.emit (.audioReceived d)
  | .audioStream => s.emit (.audioStreamReceived d)
  | .reserved => s.drop .unsupportedOptions

/-- Reverse the cipher (41_frame_receiver.md R105). -/
def decipher (p : ByteString) (h : Header) : ByteString :=
  if optsXor h.decodeOpts then xorBytes p h.encryptionKey else p

/-- Reverse the compression: what is to be dispatched, or why the frame is dropped (41_frame_receiver.md R105). -/
def decompress (params : Params) (rleEsc : Byte) (d : ByteString) (h : Header) : Except DropReason ByteString :=
  if optsCompression h.decodeOpts = .rle then
    if admits params.maxDecode h.uncompressedLength.toNat then
      match rleDecompress d rleEsc h.uncompressedLength.toNat with
      | .error _ => .error .decodeError
      | .ok r => .ok r
    else .error .allocationFailure
  else .ok d

/-- `ProcessPayload(p, h)` (41_frame_receiver.md R105). -/
def processPayload (p : ByteString) (h : Header) (s : State) : State :=
  if optsUnsupported h.decodeOpts then s.drop .unsupportedOptions
  else
    match decompress s.params s.regs.rleEsc (decipher p h) h with
    | .error reason => s.drop reason
    | .ok d => dispatch d h s

/-- `HeaderStage` (41_frame_receiver.md R102, R103). -/
def headerStage (s : State) : Stage × State :=
  if s.rx.acc.length < hdrLen then (.wait, s)
  else if !(parseHeader (s.rx.acc.take hdrLen)).signed then (.wait, (s.setAcc []).drop .invalidSignature)
  else if (parseHeader (s.rx.acc.take hdrLen)).addressedTo s.regs.stationId then
    (.progress, s.setRx
      { state := .awaitingPayload, acc := s.rx.acc.drop hdrLen, hdr := some (parseHeader (s.rx.acc.take hdrLen)) })
  else (.wait, (s.setAcc []).drop .notAddressed)

/-- `PayloadStage` (41_frame_receiver.md R104): the payload is consumed on every outcome. With no held header, which R27 excludes,
the receiver waits (log 6). -/
def payloadStage (s : State) : Stage × State :=
  match s.rx.hdr with
  | none => (.wait, s)
  | some h =>
    if s.rx.acc.length < h.dataLength.toNat then (.wait, s)
    else
      (.progress, processPayload (s.rx.acc.take h.dataLength.toNat) h
        (s.setRx { state := .awaitingHeader, acc := s.rx.acc.drop h.dataLength.toNat, hdr := none }))

/-- One iteration of the drain loop: the stage of the receiver's state (41_frame_receiver.md R101). -/
def drainStage (s : State) : Stage × State :=
  match s.rx.state with
  | .awaitingHeader => headerStage s
  | .awaitingPayload => payloadStage s

/-- At most `n` iterations of the drain loop, ending at the first that waits (41_frame_receiver.md R101). -/
def drainLoop : Nat → State → State
  | 0, s => s
  | n + 1, s =>
    match drainStage s with
    | (.wait, s') => s'
    | (.progress, s') => drainLoop n s'

/-- The bound on the loop's iterations, `2·⌊L/HDR_LEN⌋ + 2` (41_frame_receiver.md R101). -/
def drainBound (accLen : Nat) : Nat := 2 * (accLen / hdrLen) + 2

/-- `Drain()` (41_frame_receiver.md R101). -/
def drain (s : State) : State := drainLoop (drainBound s.rx.acc.length) s

/-- `RX_PUSH data` (41_frame_receiver.md R100): always status OK. -/
def execRxPush (data : ByteString) (s : State) : Host.Outcome State Fault Refusal :=
  if admits s.params.accCap (s.rx.acc.length + data.length) then
    .next ((drain (s.setAcc (s.rx.acc ++ data))).ret [])
  else .next (((s.setRx { state := .awaitingHeader, acc := [], hdr := none }).drop .accOverflow).ret [])

/-- `RX_CLOSE` (41_frame_receiver.md R110). -/
def execRxClose (s : State) : Host.Outcome State Fault Refusal :=
  .next ((s.setRx { state := .awaitingHeader, acc := [], hdr := none }).ret [])

end Sys2Proof.Machine
end

