-- ==== Sys2Proof/Machine/System.lean ====
section
/-! DEFINITION. Machine/System.lean: the system commands (47_system.md). -/

namespace Sys2Proof.Machine

/-- `CFG_WRITE reg, value`: the index is checked, then the value (47_system.md R210). -/
def execCfgWrite (reg : Byte) (value : Word) (s : State) : Host.Outcome State Fault Refusal :=
  match Reg.ofIndex reg with
  | none => .next (s.raise .badOperand)
  | some r =>
    if r.writable && r.legal value then .next ((s.writeReg r value).ret [])
    else .next (s.raise .badOperand)

/-- `CFG_READ reg` (47_system.md R211). -/
def execCfgRead (reg : Byte) (s : State) : Host.Outcome State Fault Refusal :=
  match Reg.ofIndex reg with
  | none => .next (s.raise .badOperand)
  | some r => .next (s.ret [.u32 (s.readReg r)])

/-- `RESET` (47_system.md R212). -/
def execReset (s : State) : Host.Outcome State Fault Refusal :=
  .next (s.resetBlock.ret [])

end Sys2Proof.Machine
end

