-- ==== Sys2Proof/Machine/Dispatch.lean ====
section
/-! DEFINITION. Machine/Dispatch.lean: one arm per command of 30_encoding.md R79, each one call of its meaning. -/

namespace Sys2Proof.Machine

/-- Perform one decoded command, whole and indivisible (00_scope.md R9, 20_memory.md R55). -/
def exec (i : Instr) (s : State) : Host.Outcome State Fault Refusal :=
  match i with
  | .cfgWrite reg value => Sys2Proof.Machine.execCfgWrite reg value s
  | .cfgRead reg => Sys2Proof.Machine.execCfgRead reg s
  | .reset => Sys2Proof.Machine.execReset s
  | .rxPush data => Sys2Proof.Machine.execRxPush data s
  | .rxClose => Sys2Proof.Machine.execRxClose s
  | .txEncode receiverId decodeOpts useHeader payload => Sys2Proof.Machine.execTxEncode receiverId decodeOpts useHeader payload s
  | .rleCompress esc input => Sys2Proof.Machine.execRleCompress esc input s
  | .rleDecompress esc expected input => Sys2Proof.Machine.execRleDecompress esc expected input s
  | .xorApply key input => Sys2Proof.Machine.execXorApply key input s
  | .chkCompute divisor input => Sys2Proof.Machine.execChkCompute divisor input s
  | .chkVerify divisor expected input => Sys2Proof.Machine.execChkVerify divisor expected input s
  | .sbReset => Sys2Proof.Machine.execSbReset s
  | .sbAppend data => Sys2Proof.Machine.execSbAppend data s
  | .sbRead maxLength => Sys2Proof.Machine.execSbRead maxLength s
  | .sbRemoveChunk offset => Sys2Proof.Machine.execSbRemoveChunk offset s
  | .sbReadPos => Sys2Proof.Machine.execSbReadPos s

end Sys2Proof.Machine
end

