-- ==== Sys2Proof/Machine/Step.lean ====
section
/-! DEFINITION. Machine/Step.lean: one step of the machine serves one waiting agent (20_memory.md R54, R55, R57), and how an
opcode-table word is placed so that the next step performs it. -/

namespace Sys2Proof.Machine

/-- Perform a transaction taken at a port: decode it (30_encoding.md R74), then perform the command; a transaction that does not
decode is answered with its status and changes nothing else. -/
def performTransaction (p : Port) (t : ByteString) (s : State) : Host.Outcome State Fault Refusal :=
  match decode p t with
  | .error e => .next (s.raise (decodeStatus e))
  | .ok i => exec i s

/-- A port's step: it takes its oldest transaction and performs it; with none, nothing happens (20_memory.md R54). -/
def servePort (p : Port) (s : State) : Host.Outcome State Fault Refusal :=
  match s.take p with
  | none => .next s
  | some (t, s') => performTransaction p t s'

/-- One step: the granted agent is served, whole (20_memory.md R55, R57). With nothing waiting the block does nothing (log 5). -/
def step (s : State) : Host.Outcome State Fault Refusal :=
  match s.granted with
  | none => .next s
  | some (.port p) => servePort p s
  | some .queueReader => .next s.serveMessage

/-- The state in which an opcode-table word stands at P0, alone, so that the very next step takes and performs it (log 7). -/
def State.withFetchWord (s : State) (nbits w : Nat) : State :=
  { s with p0 := [tableTransaction nbits w], p1 := [], mqReads := 0 }

end Sys2Proof.Machine
end

