-- ==== Sys2Proof/Machine/Assembler.lean ====
section
/-! DEFINITION. Machine/Assembler.lean: the assembler notation of 30_encoding.md R86, from the characters of one line to the port it
addresses and the transaction it stands for. No step uses it: it is the spec's way to write transactions down. -/

namespace Sys2Proof.Machine

/-- What a line is made of (30_encoding.md R86). -/
inductive Token where
  | word (w : List Char)
  | text (b : ByteString)
  | comma | bar | colon | openBracket | closeBracket
deriving DecidableEq, Repr

/-- Where the lexer stands: between tokens, inside a word or a quoted string (read so far, last first), or in a comment. -/
inductive LexMode where
  | between
  | inWord (w : List Char)
  | inText (b : ByteString)
  | inComment
deriving DecidableEq, Repr

/-- A character of a number, a mnemonic or a name. -/
def wordChar (c : Char) : Bool := c.isAlphanum || c == '_'

/-- The ASCII code of a character; a character outside ASCII is in no string (00_scope.md R8). -/
def asciiCode (c : Char) : Option Byte := if c.toNat < 128 then some (BitVec.ofNat 8 c.toNat) else none

/-- The tokens a character stands for by itself, and how the lexer goes on. -/
def lexChar (c : Char) : Option (List Token × LexMode) :=
  if c = ' ' then some ([], .between)
  else if c = ';' then some ([], .inComment)
  else if c = '"' then some ([], .inText [])
  else if c = ',' then some ([.comma], .between)
  else if c = '|' then some ([.bar], .between)
  else if c = ':' then some ([.colon], .between)
  else if c = '[' then some ([.openBracket], .between)
  else if c = ']' then some ([.closeBracket], .between)
  else if wordChar c then some ([], .inWord [c])
  else none

/-- The tokens of a line. -/
def lexLine : LexMode → List Char → Option (List Token)
  | .between, [] => some []
  | .inWord w, [] => some [.word w.reverse]
  | .inText _, [] => none
  | .inComment, _ => some []
  | .between, c :: cs => do
    let (ts, m) ← lexChar c
    let rest ← lexLine m cs
    pure (ts ++ rest)
  | .inWord w, c :: cs =>
    if wordChar c then lexLine (.inWord (c :: w)) cs
    else do
      let (ts, m) ← lexChar c
      let rest ← lexLine m cs
      pure (.word w.reverse :: ts ++ rest)
  | .inText b, c :: cs =>
    if c = '"' then do
      let rest ← lexLine .between cs
      pure (.text b.reverse :: rest)
    else do
      let a ← asciiCode c
      lexLine (.inText (a :: b)) cs

/-- The value of a digit. -/
def digitValue (c : Char) : Option Nat :=
  if '0' ≤ c ∧ c ≤ '9' then some (c.toNat - 48)
  else if 'a' ≤ c ∧ c ≤ 'f' then some (c.toNat - 87)
  else if 'A' ≤ c ∧ c ≤ 'F' then some (c.toNat - 55)
  else none

/-- The value of a digit string in a base, continuing from `acc`. -/
def digitsValue (base acc : Nat) : List Char → Option Nat
  | [] => some acc
  | c :: cs => do
    let d ← digitValue c
    if d < base then digitsValue base (base * acc + d) cs else none

/-- A number, decimal or `0x` hexadecimal (30_encoding.md R86). -/
def numberValue : List Char → Option Nat
  | [] => none
  | '0' :: 'x' :: d :: ds => digitsValue 16 0 (d :: ds)
  | d :: ds => digitsValue 10 0 (d :: ds)

/-- The name of a register (10_state.md R22). -/
def Reg.name : Reg → String
  | .stationId => "STATION_ID"
  | .rleEsc => "RLE_ESC"
  | .chkDiv => "CHK_DIV"
  | .txKey => "TX_KEY"
  | .txPriority => "TX_PRIORITY"
  | .txSeq => "TX_SEQ"
  | .txTime => "TX_TIME"
  | .rxState => "RX_STATE"
  | .rxAccLen => "RX_ACC_LEN"
  | .rxPendLen => "RX_PEND_LEN"
  | .sbTail => "SB_TAIL"
  | .sbRd => "SB_RD"

/-- The mnemonic of an opcode (30_encoding.md R79). -/
def mnemonicOf : Opcode → String
  | .cfgWrite => "CFG_WRITE"
  | .cfgRead => "CFG_READ"
  | .reset => "RESET"
  | .rxPush => "RX_PUSH"
  | .rxClose => "RX_CLOSE"
  | .txEncode => "TX_ENCODE"
  | .rleCompress => "RLE_COMPRESS"
  | .rleDecompress => "RLE_DECOMPRESS"
  | .xorApply => "XOR_APPLY"
  | .chkCompute => "CHK_COMPUTE"
  | .chkVerify => "CHK_VERIFY"
  | .sbReset => "SB_RESET"
  | .sbAppend => "SB_APPEND"
  | .sbRead => "SB_READ"
  | .sbRemoveChunk => "SB_REMOVE_CHUNK"
  | .sbReadPos => "SB_READ_POS"

/-- The value of a decodeOpts field name (30_encoding.md R86). -/
def optsNameValue (w : List Char) : Option Nat :=
  if w = "TEXT".toList then some 0x00
  else if w = "AUDIO".toList then some 0x01
  else if w = "AUDIO_STREAM".toList then some 0x02
  else if w = "RLE".toList then some 0x04
  else if w = "XOR".toList then some 0x10
  else if w = "NONE".toList then some 0x00
  else none

/-- The sum of a `|`-joined list of decodeOpts field names (30_encoding.md R86). -/
def optsSum : List Token → Option Nat
  | [.word w] => optsNameValue w
  | .word w :: .bar :: rest => do
    let v ← optsNameValue w
    let u ← optsSum rest
    pure (v + u)
  | _ => none

/-- How an operand position may be written: a number of this many bytes, also by register name or by decodeOpts field names where
R86 says so, or a byte string. -/
inductive AsmKind where
  | number (width : Nat)
  | reg
  | opts
  | bytes
deriving DecidableEq, Repr

/-- The operand positions of an opcode (30_encoding.md R79, R86). -/
def asmKindsOf : Opcode → List AsmKind
  | .cfgWrite => [.reg, .number 4]
  | .cfgRead => [.reg]
  | .reset => []
  | .rxPush => [.bytes]
  | .rxClose => []
  | .txEncode => [.number 1, .opts, .number 1, .bytes]
  | .rleCompress => [.number 1, .bytes]
  | .rleDecompress => [.number 1, .number 4, .bytes]
  | .xorApply => [.number 1, .bytes]
  | .chkCompute => [.number 2, .bytes]
  | .chkVerify => [.number 2, .number 1, .bytes]
  | .sbReset => []
  | .sbAppend => [.bytes]
  | .sbRead => [.number 4]
  | .sbRemoveChunk => [.number 4]
  | .sbReadPos => []

/-- The `width` bytes of a number, little-endian, if it fits (30_encoding.md R71). -/
def asmNumber (width n : Nat) : Option ByteString :=
  if n < 256 ^ width then some ((List.range width).map (fun k => BitVec.ofNat 8 (n >>> (8 * k)))) else none

/-- The bytes of a hex list up to its closing bracket (30_encoding.md R86). -/
def hexList : List Token → Option ByteString
  | [.closeBracket] => some []
  | .word w :: rest => do
    let v ← digitsValue 16 0 w
    let b ← if v < 256 then some (BitVec.ofNat 8 v) else none
    let bs ← hexList rest
    pure (b :: bs)
  | _ => none

/-- One operand as the bytes it assembles to (30_encoding.md R71, R86). -/
def asmOperand (k : AsmKind) (ts : List Token) : Option ByteString :=
  match k, ts with
  | .number width, [.word w] => do
    let n ← numberValue w
    asmNumber width n
  | .reg, [.word w] =>
    match Reg.all.find? (fun r => r.name.toList == w) with
    | some r => some [r.index]
    | none => do
      let n ← numberValue w
      asmNumber 1 n
  | .opts, ts =>
    match optsSum ts, ts with
    | some v, _ => asmNumber 1 v
    | none, [.word w] => do
      let n ← numberValue w
      asmNumber 1 n
    | none, _ => none
  | .bytes, [.text b] => some (encodeBytes b)
  | .bytes, .openBracket :: rest => do
    let b ← hexList rest
    pure (encodeBytes b)
  | _, _ => none

/-- The operands of a line, split at its commas. -/
def splitOperands : List Token → List (List Token)
  | [] => [[]]
  | .comma :: rest => [] :: splitOperands rest
  | t :: rest =>
    match splitOperands rest with
    | [] => [[t]]
    | o :: os => (t :: o) :: os

/-- The operand bytes of a line: as many operands as positions, in order, with no padding (30_encoding.md R70, R86). -/
def asmOperands : List AsmKind → List (List Token) → Option ByteString
  | [], [] => some []
  | [], [[]] => some []
  | k :: ks, o :: os => do
    let b ← asmOperand k o
    let bs ← asmOperands ks os
    pure (b ++ bs)
  | _, _ => none

/-- A mnemonic with its operands; `TX_RAW bytes` expands to `TX_ENCODE 0, 0, 0, bytes` (30_encoding.md R86). -/
def asmCommand : List Token → Option ByteString
  | .word m :: rest =>
    if m = "TX_RAW".toList then do
      let b ← asmOperands [.bytes] (splitOperands rest)
      pure ([Opcode.txEncode.code, 0, 0, 0] ++ b)
    else
      match Opcode.all.find? (fun op => (mnemonicOf op).toList == m) with
      | none => none
      | some op => do
        let b ← asmOperands (asmKindsOf op) (splitOperands rest)
        pure (op.code :: b)
  | _ => none

/-- One line of a program, `[P1:] MNEMONIC operand, operand, ...`: the port and the transaction (30_encoding.md R86). -/
def assemble (line : String) : Option (Port × ByteString) := do
  let ts ← lexLine .between line.toList
  match ts with
  | .word ['P', '1'] :: .colon :: rest => do
    let t ← asmCommand rest
    pure (.p1, t)
  | _ => do
    let t ← asmCommand ts
    pure (.p0, t)

end Sys2Proof.Machine
end

