-- ==== Sys2Proof/Safety.lean ====
section
/-! DEFINITION. Safety.lean: the terms claims are made in: completion, runs of several commands, the invariants the spec states of
every reachable state, and the spec's own descriptions of what a frame, a run-length item and a FIFO history are. -/

namespace Sys2Proof.Machine

/-! ### Completion and runs -/

/-- A step or command completes: it answers a next state. The block's failures are statuses and events, so a safe run is one that
never stops (60_exceptions.md R224, R226). -/
def Completes (o : Host.Outcome State Fault Refusal) : Prop := ∃ t, o = .next t

/-- Commands performed one after the other, each on the state the one before it left (20_memory.md R57). -/
def execAll : List Instr → State → Host.Outcome State Fault Refusal
  | [], s => .next s
  | i :: is, s =>
    match exec i s with
    | .next t => execAll is t
    | .fault f => .fault f
    | .refused r => .refused r

/-- The response a command gives on the port it came from: these bytes, behind those already given (30_encoding.md R72). -/
def State.answered (s : State) (bytes : ByteString) : List Response := s.responses ++ [{ port := s.port, bytes := bytes }]

/-- What the agents may do between two steps: present transactions behind those waiting at each port, and ask for messages
(20_memory.md R54; 60_exceptions.md R232, R236; logs 3 and 4). -/
def AgentsAct (u t : State) : Prop :=
  ∃ (q0 q1 : List ByteString) (k : Nat), t = { u with p0 := u.p0 ++ q0, p1 := u.p1 ++ q1, mqReads := u.mqReads + k }

/-- A run that never ends: the agents act after every step, in any way (20_memory.md R57). -/
def IsRun (run : Nat → State) : Prop := ∀ n, ∃ u, step (run n) = .next u ∧ AgentsAct u (run (n + 1))

/-! ### The invariants -/

/-- `rx.state = AwaitingHeader` if and only if `rx.hdr = none` (10_state.md R27). -/
def ReceiverConsistent (s : State) : Prop := s.rx.state = .awaitingHeader ↔ s.rx.hdr = none

/-- No complete header or payload is left unprocessed between commands (10_state.md R27). -/
def ReceiverDrained (s : State) : Prop :=
  (s.rx.state = .awaitingHeader → s.rx.acc.length < hdrLen) ∧
  (∀ h, s.rx.state = .awaitingPayload → s.rx.hdr = some h → s.rx.acc.length < h.dataLength.toNat)

/-- The held header passed the signature test (10_state.md R26, 41_frame_receiver.md R103). -/
def HeldHeaderSigned (s : State) : Prop := ∀ h, s.rx.hdr = some h → h.signature = 0xDEADBEEF ∧ h.signature2 = 0xDEADBEEF

/-- The accumulation buffer is within `ACC_CAP` (10_state.md R25). -/
def AccumulationWithinCap (s : State) : Prop := ∀ c, s.params.accCap = some c → s.rx.acc.length ≤ c

/-- `0 ≤ sb.rd ≤ len(sb.data) ≤ SB_CAP` (10_state.md R28). -/
def FifoOrdered (s : State) : Prop :=
  s.sb.rd ≤ s.sb.data.length ∧ ∀ c, s.params.sbCap = some c → s.sb.data.length ≤ c

/-- No RW register holds an illegal value (10_state.md R22, R23); for the registers other than `CHK_DIV` the width says so. -/
def RegistersLegal (s : State) : Prop := 1 ≤ s.regs.chkDiv.toNat ∧ s.regs.chkDiv.toNat ≤ 256

/-- The message queue holds `MSG_LEN`-byte records (60_exceptions.md R232). -/
def QueueHoldsRecords (s : State) : Prop := ∀ r ∈ s.mq, r.length = 12 + s.params.textCap

/-! ### Frames as the spec describes them -/

/-- A frame as its header and its payload bytes on the wire (30_encoding.md R81). -/
structure Frame where
  header : Header
  payload : ByteString
deriving DecidableEq, Repr

/-- The frame's bytes (30_encoding.md R81). -/
def Frame.bytes (f : Frame) : ByteString := f.header.bytes ++ f.payload

/-- The header's `dataLength` is the length of the payload (30_encoding.md R75, R81). -/
def Frame.complete (f : Frame) : Prop := f.payload.length = f.header.dataLength.toNat

/-- The header passes the receiver's two tests (41_frame_receiver.md R103). -/
def Frame.accepted (f : Frame) (station : Byte) : Prop :=
  f.header.signature = 0xDEADBEEF ∧ f.header.signature2 = 0xDEADBEEF ∧
  (f.header.receiverId = station ∨ f.header.decodeOpts.extractLsb' 0 2 = 1 ∨ f.header.decodeOpts.extractLsb' 0 2 = 2)

/-- The receiver between frames, nothing buffered. -/
def State.receiverIdle (s : State) : Prop := s.rx = { state := .awaitingHeader, acc := [], hdr := none }

/-- No push of a delivery exceeds `ACC_CAP` when its turn comes: no ACC_OVERFLOW occurs (41_frame_receiver.md R100, R109). -/
def NoOverflow : List ByteString → State → Prop
  | [], _ => True
  | c :: cs, s =>
    admits s.params.accCap (s.rx.acc.length + c.length) = true ∧ ∀ t, exec (.rxPush c) s = .next t → NoOverflow cs t

/-- The payload with its cipher reversed (41_frame_receiver.md R105). -/
def Frame.deciphered (f : Frame) : ByteString :=
  if f.header.decodeOpts.extractLsb' 4 1 = 1 then f.payload.map (fun b => b ^^^ f.header.encryptionKey) else f.payload

/-- The one outcome of a complete frame, the checks in the priority order of 60_exceptions.md R227: why it is dropped, or the bytes
it delivers. -/
def Frame.verdict (f : Frame) (params : Params) (r : Regs) : Except DropReason ByteString :=
  if f.header.signature ≠ 0xDEADBEEF ∨ f.header.signature2 ≠ 0xDEADBEEF then .error .invalidSignature
  else if f.header.receiverId ≠ r.stationId ∧ f.header.decodeOpts.extractLsb' 0 2 ≠ 1 ∧ f.header.decodeOpts.extractLsb' 0 2 ≠ 2 then
    .error .notAddressed
  else if f.header.decodeOpts.extractLsb' 0 2 = 3 ∨ f.header.decodeOpts.extractLsb' 2 2 = 2 ∨ f.header.decodeOpts.extractLsb' 2 2 = 3 then
    .error .unsupportedOptions
  else if f.header.decodeOpts.extractLsb' 2 2 = 1 ∧ admits params.maxDecode f.header.uncompressedLength.toNat = false then
    .error .allocationFailure
  else
    match (if f.header.decodeOpts.extractLsb' 2 2 = 1 then rleDecompress f.deciphered r.rleEsc f.header.uncompressedLength.toNat
      else .ok f.deciphered) with
    | .error _ => .error .decodeError
    | .ok d =>
      if f.header.decodeOpts.extractLsb' 0 2 ≠ 0 then .ok d
      else if d.length ≠ 12 + params.textCap then .error .badTextLength
      else if checksumCompute (d.take (11 + params.textCap)) r.chkDiv.toNat ≠ byteAt d (11 + params.textCap) then
        .error .checksumMismatch
      else .ok d

/-- What the block does with one frame's outcome: exactly one event, and for a verified record one enqueue
(41_frame_receiver.md R106 to R108, 60_exceptions.md R221, R222, R225). -/
def State.report (s : State) (f : Frame) : State :=
  match f.verdict s.params s.regs with
  | .error reason => { s with ev := s.ev ++ [.rxDrop reason] }
  | .ok d =>
    if f.header.decodeOpts.extractLsb' 0 2 = 0 then
      { s with mq := s.mq ++ [d], ev := s.ev ++ [.queueSizeChanged (s.mq.length + 1)] }
    else if f.header.decodeOpts.extractLsb' 0 2 = 1 then { s with ev := s.ev ++ [.audioReceived d] }
    else { s with ev := s.ev ++ [.audioStreamReceived d] }

/-! ### Run-length items as the spec describes them -/

/-- An item of a run-length encoded string (30_encoding.md R85). -/
inductive RleItem where
  | literal (b : Byte)
  | run (n b : Byte)
deriving DecidableEq, Repr

/-- An item is well-formed for an escape byte: a literal is not the escape, a count is not 0 (30_encoding.md R85). -/
def RleItem.valid (e : Byte) : RleItem → Prop
  | .literal b => b ≠ e
  | .run n _ => n ≠ 0

/-- The bytes of an item (30_encoding.md R85). -/
def RleItem.wire (e : Byte) : RleItem → ByteString
  | .literal b => [b]
  | .run n b => [e, n, b]

/-- What an item stands for (30_encoding.md R85). -/
def RleItem.plain : RleItem → ByteString
  | .literal b => [b]
  | .run n b => List.replicate n.toNat b

/-! ### FIFO histories -/

/-- The commands that move a FIFO cursor back (46_streaming_buffer.md R196, 47_system.md R212). -/
def compacts : Instr → Bool
  | .sbReset | .sbRemoveChunk _ | .reset => true
  | .cfgWrite _ _ | .cfgRead _ | .rxPush _ | .rxClose | .txEncode _ _ _ _ | .rleCompress _ _ | .rleDecompress _ _ _ | .xorApply _ _
  | .chkCompute _ _ | .chkVerify _ _ _ | .sbAppend _ | .sbRead _ | .sbReadPos => false

/-- The bytes a command appends to the FIFO: those of an `SB_APPEND` that fits (46_streaming_buffer.md R191). -/
def appendedBy (i : Instr) (s : State) : ByteString :=
  match i with
  | .sbAppend data => if admits s.params.sbCap (s.sb.data.length + data.length) then data else []
  | _ => []

/-- The bytes a command returns from the FIFO: an `SB_READ`'s response without its status and length (30_encoding.md R72). -/
def returnedBy (i : Instr) (s : State) : ByteString :=
  match i, exec i s with
  | .sbRead _, .next t => ((t.responses.drop s.responses.length).flatMap (fun r => r.bytes.drop 5))
  | _, _ => []

/-- What a sequence of commands does to the FIFO: the bytes appended and the bytes returned, in the total order of
20_memory.md R57, and the state at its end. -/
def fifoHistory : List Instr → State → ByteString × ByteString × State
  | [], s => ([], [], s)
  | i :: is, s =>
    match exec i s with
    | .next t => (appendedBy i s ++ (fifoHistory is t).1, returnedBy i s ++ (fifoHistory is t).2.1, (fifoHistory is t).2.2)
    | .fault _ => ([], [], s)
    | .refused _ => ([], [], s)

/-- The bytes appended and not yet read (46_streaming_buffer.md R192). -/
def State.unread (s : State) : ByteString := s.sb.data.drop s.sb.rd

end Sys2Proof.Machine
end

