-- ==== Sys2Proof/Certificates/Slice0/Obligations.lean ====
section
/-! DEFINITION. Obligations.lean: the statements for the provers, from the numbered rules of spec/. -/

open Sys2Proof Sys2Proof.Machine

/-! ### Encodings and the decoder -/

/-- The worked encodings of 30_encoding.md R87: what each line assembles to, what the decoder reads from it, and the two responses. -/
def Obligations.SpecExampleEncodings : Prop :=
  assemble "CFG_WRITE STATION_ID, 3" = some (.p0, [0x01, 0x00, 0x03, 0x00, 0x00, 0x00]) ∧
  assemble "RX_PUSH [EF BE]" = some (.p0, [0x10, 0x02, 0x00, 0x00, 0x00, 0xEF, 0xBE]) ∧
  assemble "SB_READ 8" = some (.p0, [0x52, 0x08, 0x00, 0x00, 0x00]) ∧
  assemble "TX_ENCODE 3, TEXT|RLE|XOR, 1, \"HELLO\"" =
    some (.p0, [0x20, 0x03, 0x14, 0x01, 0x05, 0x00, 0x00, 0x00, 0x48, 0x45, 0x4C, 0x4C, 0x4F]) ∧
  decode .p0 [0x01, 0x00, 0x03, 0x00, 0x00, 0x00] = .ok (.cfgWrite 0x00 3) ∧
  decode .p0 [0x10, 0x02, 0x00, 0x00, 0x00, 0xEF, 0xBE] = .ok (.rxPush [0xEF, 0xBE]) ∧
  decode .p0 [0x52, 0x08, 0x00, 0x00, 0x00] = .ok (.sbRead 8) ∧
  decode .p0 [0x20, 0x03, 0x14, 0x01, 0x05, 0x00, 0x00, 0x00, 0x48, 0x45, 0x4C, 0x4C, 0x4F] =
    .ok (.txEncode 0x03 0x14 0x01 [0x48, 0x45, 0x4C, 0x4C, 0x4F]) ∧
  (∀ s : State, s.sb.rd = 5 →
    exec .sbReadPos s = .next { s with responses := s.answered [0x00, 0x05, 0x00, 0x00, 0x00] }) ∧
  (∀ (p : Port) (s : State), performTransaction p [0x52, 0x08, 0x00, 0x00] s = .next { s with responses := s.answered [0x02] })

/-- Every well-formed command is read back from its transaction, at every port that accepts it, with every operand at every value
(30_encoding.md R70, R71, R79). -/
def Obligations.DecodeOfEncodeIsIdentity : Prop :=
  ∀ (p : Port) (i : Instr), i.wellFormed = true → i.opcode.acceptedOn p = true → decode p (encode i) = .ok i

/-- A transaction that decodes is the encoding of the command it decodes to: no bit of it is ignored and no byte is left over
(30_encoding.md R70, R71), and the port accepts it (R74). -/
def Obligations.DecodedCommandHasThatEncoding : Prop :=
  ∀ (p : Port) (t : ByteString) (i : Instr), decode p t = .ok i →
    encode i = t ∧ i.wellFormed = true ∧ i.opcode.acceptedOn p = true

/-- 30_encoding.md R74: the opcode, then the port, then the length (R71: 1 plus the widths of the operands), then the command. A
transaction refused by one of the first three checks is answered with its status and changes nothing. -/
def Obligations.TransactionChecksRunInOrder : Prop :=
  ∀ (p : Port) (t : ByteString) (s : State),
    ((∀ (op : Opcode) (rest : ByteString), t ≠ op.code :: rest) →
      performTransaction p t s = .next { s with responses := s.answered [0x01] }) ∧
    (∀ (op : Opcode) (rest : ByteString), t = op.code :: rest →
      (op.acceptedOn p = false → performTransaction p t s = .next { s with responses := s.answered [0x01] }) ∧
      (op.acceptedOn p = true → t.length ≠ 1 + operandsWidth op.operands rest →
        performTransaction p t s = .next { s with responses := s.answered [0x02] }) ∧
      (op.acceptedOn p = true → t.length = 1 + operandsWidth op.operands rest →
        ∃ i, i.opcode = op ∧ encode i = t ∧ performTransaction p t s = exec i s))

/-- 30_encoding.md R80: the byte values that are no opcode, and what a transaction that starts with one does, on either port. -/
def Obligations.IllegalOpcodeChangesNothing : Prop :=
  ∀ b : Byte,
    (Opcode.ofByte b = none ↔
      b = 0x00 ∨ (0x03 ≤ b ∧ b ≤ 0x0E) ∨ (0x12 ≤ b ∧ b ≤ 0x1F) ∨ (0x21 ≤ b ∧ b ≤ 0x2F) ∨ (0x32 ≤ b ∧ b ≤ 0x37) ∨
      (0x39 ≤ b ∧ b ≤ 0x3F) ∨ (0x42 ≤ b ∧ b ≤ 0x4F) ∨ 0x55 ≤ b) ∧
    (Opcode.ofByte b = none → ∀ (p : Port) (rest : ByteString) (s : State),
      performTransaction p (b :: rest) s = .next { s with responses := s.answered [0x01] })

/-! ### The step -/

/-- A step runs the decoded command: where port `p` is granted and its oldest transaction decodes, the step is that command's
meaning, in the state with the transaction taken, the response going to `p`, and the turn counted (20_memory.md R54, R55); a
transaction that does not decode is answered on `p` with its status, and nothing else changes (30_encoding.md R73, R74). The port and
turn fields are the model's own (logs 2 and 3). -/
def Obligations.StepRunsDecodedCommand : Prop :=
  ∀ (s : State) (p : Port) (t : ByteString) (q : List ByteString),
    s.granted = some (.port p) → s.pending p = t :: q →
    (∀ i, decode p t = .ok i → step s = exec i { s.setPending p q with port := p, turn := s.turn + 1 }) ∧
    (∀ e, decode p t = .error e → step s = .next { s.setPending p q with
      port := p
      turn := s.turn + 1
      responses := s.responses ++ [{ port := p, bytes := [if e = .illegalOpcode then 0x01 else 0x02] }] })

/-- The arbiter grants an agent that waits, grants one whenever some agent waits, grants the only one that waits, and at a turn reserved
for a port grants that port if it waits; with nothing waiting the step changes nothing (the model's reading of 20_memory.md R54, R57
and 70_reset_and_hazards.md R290: logs 2 and 5). -/
def Obligations.ArbiterServesAWaitingAgent : Prop :=
  ∀ s : State,
    (∀ p : Port, s.granted = some (.port p) → s.pending p ≠ []) ∧
    (s.granted = some .queueReader → s.mqReads ≠ 0) ∧
    (s.granted = none ↔ s.p0 = [] ∧ s.p1 = [] ∧ s.mqReads = 0) ∧
    (s.p0 ≠ [] → s.p1 = [] → s.mqReads = 0 → s.granted = some (.port .p0)) ∧
    (s.p0 = [] → s.p1 ≠ [] → s.mqReads = 0 → s.granted = some (.port .p1)) ∧
    (s.p0 = [] → s.p1 = [] → s.mqReads ≠ 0 → s.granted = some .queueReader) ∧
    (∀ p : Port, reservedFor s.turn = some p → s.pending p ≠ [] → s.granted = some (.port p)) ∧
    (s.granted = none → step s = .next s)

/-- Every step answers a next state, whatever the state (20_memory.md R59, 30_encoding.md R74): that none ends in a fault or a refusal is
the model's reading (log 11), and that a step with nothing waiting answers too is its choice (log 5). Which agent a step serves is said
by ArbiterServesAWaitingAgent and EveryWaitingTransactionIsPerformed. -/
def Obligations.EveryStepCompletes : Prop := ∀ s : State, Completes (step s)

/-- 70_reset_and_hazards.md R290 with 92_eei_decisions.md D28: both ports are served fairly. In every run, whatever the two agents
present and ask for between the steps, each transaction that waits at a port comes to stand at the head of its queue when that port
is granted, so that it is performed (StepRunsDecodedCommand). The queues at the ports, the moves between steps and the rota by which
the arbiter is fair are the model's own (logs 2 to 4). -/
def Obligations.EveryWaitingTransactionIsPerformed : Prop :=
  ∀ run : Nat → State, IsRun run →
    ∀ (n : Nat) (p : Port) (ahead : List ByteString) (t : ByteString) (behind : List ByteString),
      (run n).pending p = ahead ++ t :: behind →
      ∃ (m : Nat) (q : List ByteString), n ≤ m ∧ (run m).granted = some (.port p) ∧ (run m).pending p = t :: q

/-- 30_encoding.md R72: every command gets exactly one response, on its port: a status code, and results only with OK. -/
def Obligations.EveryCommandAnswersOnce : Prop :=
  ∀ (i : Instr) (s : State), ∃ (t : State) (st : Status) (results : List Result),
    exec i s = .next t ∧ t.responses = s.answered (st.code :: results.flatMap Result.encode) ∧ (st ≠ .ok → results = [])

/-- 30_encoding.md R73: a command that raises a non-OK status changes no state, emits no event and writes no TX byte. -/
def Obligations.FailedCommandChangesNothing : Prop :=
  ∀ (i : Instr) (s t : State) (c : Byte) (rest : ByteString),
    exec i s = .next t → t.responses = s.answered (c :: rest) → c ≠ 0x00 →
    t = { s with responses := t.responses } ∧ rest = []

/-- Every piece of state is changed only by its own commands (10_state.md R21, R23; 20_memory.md R50; 41_frame_receiver.md R108;
42_frame_encoder.md R134; 46_streaming_buffer.md): the receiver by RX_PUSH, RX_CLOSE and RESET; registers by CFG_WRITE and RESET, but
for TX_SEQ, which TX_ENCODE also changes; the FIFO by its commands and RESET; `tx` by TX_ENCODE; `ev` and `mq` by RX_PUSH. The parameters,
what stands at the ports, the requests for messages with their answers, the port and the turn are changed by no command: those fields
are the model's own (logs 1 to 4), and that RESET too leaves what waits is the model's choice (log 15). -/
def Obligations.StateChangesOnlyByItsCommands : Prop :=
  ∀ (i : Instr) (s t : State), exec i s = .next t →
    ((∀ d, i ≠ .rxPush d) → i ≠ .rxClose → i ≠ .reset → t.rx = s.rx) ∧
    ((∀ r v, i ≠ .cfgWrite r v) → i ≠ .reset → t.regs = { s.regs with txSeq := t.regs.txSeq }) ∧
    ((∀ r v, i ≠ .cfgWrite r v) → i ≠ .reset → (∀ a b c d, i ≠ .txEncode a b c d) → t.regs = s.regs) ∧
    ((∀ d, i ≠ .sbAppend d) → (∀ n, i ≠ .sbRead n) → (∀ n, i ≠ .sbRemoveChunk n) → i ≠ .sbReset → i ≠ .reset → t.sb = s.sb) ∧
    ((∀ a b c d, i ≠ .txEncode a b c d) → t.tx = s.tx) ∧
    ((∀ d, i ≠ .rxPush d) → t.ev = s.ev ∧ t.mq = s.mq) ∧
    t.params = s.params ∧ t.p0 = s.p0 ∧ t.p1 = s.p1 ∧ t.mqReads = s.mqReads ∧ t.port = s.port ∧ t.turn = s.turn ∧
    t.mqAnswers = s.mqAnswers

/-- 20_memory.md R56, its first and third points: CFG_READ, SB_READ_POS and the codec commands change no state; a codec command's
response depends on its operands only. SB_READ, which advances the read cursor (R56's second point), is FifoReadReturnsUnreadBytes. -/
def Obligations.CfgReadSbReadPosAndCodecsHaveNoEffect : Prop :=
  ∀ (i : Instr), (i.opcode = .cfgRead ∨ i.opcode = .sbReadPos ∨ i.opcode = .rleCompress ∨ i.opcode = .rleDecompress ∨
      i.opcode = .xorApply ∨ i.opcode = .chkCompute ∨ i.opcode = .chkVerify) →
    (∀ s : State, ∃ b, exec i s = .next { s with responses := s.answered b }) ∧
    (i.opcode ≠ .cfgRead → i.opcode ≠ .sbReadPos →
      ∃ b, ∀ s : State, exec i s = .next { s with responses := s.answered b })

/-- 10_state.md R32, 20_memory.md R52, 60_exceptions.md R220, R230: no step removes or alters a byte of `tx` or an event already raised;
the block appends only. That the responses and the answers to requests for messages are whole histories too, never shortened, is the
model's reading (log 14), in fields of its own (logs 3 and 4). -/
def Obligations.StepOnlyAppendsToStreams : Prop :=
  ∀ s t : State, step s = .next t →
    s.tx <+: t.tx ∧ s.ev <+: t.ev ∧ s.responses <+: t.responses ∧ s.mqAnswers <+: t.mqAnswers

/-- 20_memory.md R54: what P1 can do. Whatever it presents, the registers, the receiver, `tx`, `ev`, `mq`, the parameters and what
stands at P0 stay, and every new response goes to P1. -/
def Obligations.PortOneReachesOnlyTheFifo : Prop :=
  ∀ s t : State, servePort .p1 s = .next t →
    t.params = s.params ∧ t.regs = s.regs ∧ t.rx = s.rx ∧ t.tx = s.tx ∧ t.ev = s.ev ∧ t.mq = s.mq ∧ t.p0 = s.p0 ∧
    t.mqReads = s.mqReads ∧ t.mqAnswers = s.mqAnswers ∧
    ∃ new, t.responses = s.responses ++ new ∧ ∀ r ∈ new, r.port = .p1

/-- 60_exceptions.md R232: the message queue. What any step but the host's removal adds to its tail are records of MSG_LEN bytes whose
checksum verifies (41_frame_receiver.md R106), and such a step removes none. That the host's removal at the head is a step of the
machine, served by the arbiter from a count of requests, is the model's choice (logs 2 and 4). -/
def Obligations.QueueGrowsAtTailShrinksAtHead : Prop :=
  ∀ s : State,
    (s.granted = some .queueReader →
      step s = .next { s with
        mq := s.mq.drop 1, mqAnswers := s.mqAnswers ++ [s.mq.head?], mqReads := s.mqReads - 1, turn := s.turn + 1 }) ∧
    (∀ t, s.granted ≠ some .queueReader → step s = .next t →
      t.mqAnswers = s.mqAnswers ∧
      ∃ new : List Record, t.mq = s.mq ++ new ∧ ∀ r ∈ new, r.length = 12 + s.params.textCap ∧
        checksumCompute (r.take (11 + s.params.textCap)) s.regs.chkDiv.toNat = byteAt r (11 + s.params.textCap))

/-! ### Invariants every step keeps -/

/-- 10_state.md R27: the receiver's state and held header agree, and no complete header or payload is left unprocessed, before every
command and after it. -/
def Obligations.StepKeepsReceiverDrained : Prop :=
  ∀ s t : State, ReceiverConsistent s → ReceiverDrained s → step s = .next t → ReceiverConsistent t ∧ ReceiverDrained t

/-- 46_streaming_buffer.md R195, 10_state.md R28: the FIFO's cursors stay ordered and within its capacity. -/
def Obligations.StepKeepsFifoOrdered : Prop :=
  ∀ s t : State, FifoOrdered s → step s = .next t → FifoOrdered t

/-- 10_state.md R25: the accumulation buffer stays within its capacity; 10_state.md R26: the held header is an accepted one. -/
def Obligations.StepKeepsAccumulationWithinCap : Prop :=
  ∀ s t : State, AccumulationWithinCap s → HeldHeaderSigned s → step s = .next t → AccumulationWithinCap t ∧ HeldHeaderSigned t

/-- 10_state.md R23: no RW register ever holds an illegal value. 60_exceptions.md R232: the queue holds records of MSG_LEN bytes.
00_scope.md R6: the parameters stay. -/
def Obligations.StepKeepsRegistersLegalAndRecordsSized : Prop :=
  ∀ s t : State, RegistersLegal s → QueueHoldsRecords s → step s = .next t →
    RegistersLegal t ∧ QueueHoldsRecords t ∧ t.params = s.params

/-- The state at the start of a run meets every invariant, for all parameters (70_reset_and_hazards.md R260, R261). -/
def Obligations.ResetMeetsTheInvariants : Prop :=
  ∀ params : Params,
    ReceiverConsistent (State.resetWith params) ∧ ReceiverDrained (State.resetWith params) ∧
    FifoOrdered (State.resetWith params) ∧ AccumulationWithinCap (State.resetWith params) ∧
    HeldHeaderSigned (State.resetWith params) ∧ RegistersLegal (State.resetWith params) ∧
    QueueHoldsRecords (State.resetWith params)

/-! ### System commands -/

/-- 47_system.md R210: a legal value is stored in the register its index names and nothing else changes; an illegal value, a read-only
index and a reserved index answer BAD_OPERAND and change nothing. -/
def Obligations.CfgWriteStoresLegalValues : Prop :=
  ∀ (s : State) (v : Word),
    exec (.cfgWrite 0x00 v) s = (if v.toNat ≤ 255
      then .next { s with regs := { s.regs with stationId := v.setWidth 8 }, responses := s.answered [0x00] }
      else .next { s with responses := s.answered [0x03] }) ∧
    exec (.cfgWrite 0x01 v) s = (if v.toNat ≤ 255
      then .next { s with regs := { s.regs with rleEsc := v.setWidth 8 }, responses := s.answered [0x00] }
      else .next { s with responses := s.answered [0x03] }) ∧
    exec (.cfgWrite 0x02 v) s = (if 1 ≤ v.toNat ∧ v.toNat ≤ 256
      then .next { s with regs := { s.regs with chkDiv := v.setWidth 9 }, responses := s.answered [0x00] }
      else .next { s with responses := s.answered [0x03] }) ∧
    exec (.cfgWrite 0x03 v) s = (if v.toNat ≤ 255
      then .next { s with regs := { s.regs with txKey := v.setWidth 8 }, responses := s.answered [0x00] }
      else .next { s with responses := s.answered [0x03] }) ∧
    exec (.cfgWrite 0x04 v) s = (if v.toNat ≤ 255
      then .next { s with regs := { s.regs with txPriority := v.setWidth 8 }, responses := s.answered [0x00] }
      else .next { s with responses := s.answered [0x03] }) ∧
    exec (.cfgWrite 0x05 v) s = .next { s with regs := { s.regs with txSeq := v }, responses := s.answered [0x00] } ∧
    exec (.cfgWrite 0x06 v) s = .next { s with regs := { s.regs with txTime := v }, responses := s.answered [0x00] } ∧
    (∀ reg : Byte, 0x06 < reg → exec (.cfgWrite reg v) s = .next { s with responses := s.answered [0x03] })

/-- 47_system.md R211 with the register map of 10_state.md R22: what every index reads as; a reserved index answers BAD_OPERAND. -/
def Obligations.CfgReadReturnsTheRegister : Prop :=
  ∀ s : State,
    exec (.cfgRead 0x00) s = .next { s with responses := s.answered (0x00 :: le32 (s.regs.stationId.setWidth 32)) } ∧
    exec (.cfgRead 0x01) s = .next { s with responses := s.answered (0x00 :: le32 (s.regs.rleEsc.setWidth 32)) } ∧
    exec (.cfgRead 0x02) s = .next { s with responses := s.answered (0x00 :: le32 (s.regs.chkDiv.setWidth 32)) } ∧
    exec (.cfgRead 0x03) s = .next { s with responses := s.answered (0x00 :: le32 (s.regs.txKey.setWidth 32)) } ∧
    exec (.cfgRead 0x04) s = .next { s with responses := s.answered (0x00 :: le32 (s.regs.txPriority.setWidth 32)) } ∧
    exec (.cfgRead 0x05) s = .next { s with responses := s.answered (0x00 :: le32 s.regs.txSeq) } ∧
    exec (.cfgRead 0x06) s = .next { s with responses := s.answered (0x00 :: le32 s.regs.txTime) } ∧
    exec (.cfgRead 0x10) s = .next { s with
      responses := s.answered (0x00 :: le32 (if s.rx.state = .awaitingHeader then 0 else 1)) } ∧
    exec (.cfgRead 0x11) s = .next { s with
      responses := s.answered (0x00 :: le32 (BitVec.ofNat 32 (min s.rx.acc.length 4294967295))) } ∧
    (s.rx.state = .awaitingHeader → exec (.cfgRead 0x12) s = .next { s with responses := s.answered [0x00, 0x00, 0x00, 0x00, 0x00] }) ∧
    (∀ h, s.rx.state = .awaitingPayload → s.rx.hdr = some h →
      exec (.cfgRead 0x12) s = .next { s with responses := s.answered (0x00 :: le32 h.dataLength) }) ∧
    exec (.cfgRead 0x20) s = .next { s with
      responses := s.answered (0x00 :: le32 (BitVec.ofNat 32 (min s.sb.data.length 4294967295))) } ∧
    exec (.cfgRead 0x21) s = .next { s with responses := s.answered (0x00 :: le32 (BitVec.ofNat 32 (min s.sb.rd 4294967295))) } ∧
    (∀ reg : Byte, (0x06 < reg ∧ reg < 0x10) ∨ (0x12 < reg ∧ reg < 0x20) ∨ 0x21 < reg →
      exec (.cfgRead reg) s = .next { s with responses := s.answered [0x03] })

/-- 10_state.md R23: reading an RW register returns the last value written to it, zero-extended to 32 bits: a CFG_WRITE that answered OK
and a CFG_READ of the same index after it. -/
def Obligations.WrittenRegisterReadsBack : Prop :=
  ∀ (s t : State) (reg : Byte) (v : Word),
    exec (.cfgWrite reg v) s = .next t → t.responses = s.answered [0x00] →
    exec (.cfgRead reg) t = .next { t with responses := t.answered (0x00 :: le32 v) }

/-- 47_system.md R212, 70_reset_and_hazards.md R260, R261: RESET puts every register, the receiver and the FIFO at their reset values
and leaves `tx`, `ev` and `mq`; power-on reset leaves the same values, for all parameters, with `tx`, `ev` and `mq` empty. That RESET leaves
what waits at the ports and the model's counters is the model's choice (log 15), as is the field for the parameters (log 1). -/
def Obligations.ResetCommandEqualsPowerOn : Prop :=
  (∀ s : State, exec .reset s = .next { s with
    regs := { stationId := 0x00, rleEsc := 0x1B, chkDiv := 256, txKey := 0x00, txPriority := 0x00, txSeq := 0, txTime := 0 }
    rx := { state := .awaitingHeader, acc := [], hdr := none }
    sb := { data := [], rd := 0 }
    responses := s.answered [0x00] }) ∧
  (∀ params : Params,
    (State.resetWith params).params = params ∧
    (State.resetWith params).regs =
      { stationId := 0x00, rleEsc := 0x1B, chkDiv := 256, txKey := 0x00, txPriority := 0x00, txSeq := 0, txTime := 0 } ∧
    (State.resetWith params).rx = { state := .awaitingHeader, acc := [], hdr := none } ∧
    (State.resetWith params).sb = { data := [], rd := 0 } ∧
    (State.resetWith params).tx = [] ∧ (State.resetWith params).ev = [] ∧ (State.resetWith params).mq = [])

/-! ### The frame receiver -/

/-- 41_frame_receiver.md R100, 60_exceptions.md R226: RX_PUSH always completes with OK, whatever it is given; it appends to `ev` and
`mq` only, and changes no register, no FIFO, no `tx`. -/
def Obligations.RxPushAlwaysCompletesOk : Prop :=
  ∀ (s : State) (data : ByteString), ∃ t : State,
    exec (.rxPush data) s = .next t ∧ t.responses = s.answered [0x00] ∧ s.ev <+: t.ev ∧ s.mq <+: t.mq ∧
    t.params = s.params ∧ t.regs = s.regs ∧ t.sb = s.sb ∧ t.tx = s.tx ∧ t.p0 = s.p0 ∧ t.p1 = s.p1 ∧
    t.mqReads = s.mqReads ∧ t.port = s.port ∧ t.turn = s.turn ∧ t.mqAnswers = s.mqAnswers

/-- 41_frame_receiver.md R100: a push that would exceed a finite ACC_CAP discards everything buffered and everything pushed, before any
frame of it is looked at (60_exceptions.md R227). -/
def Obligations.OverflowingPushDiscards : Prop :=
  ∀ (s : State) (data : ByteString) (c : Nat), s.params.accCap = some c → c < s.rx.acc.length + data.length →
    exec (.rxPush data) s = .next { s with
      rx := { state := .awaitingHeader, acc := [], hdr := none }, ev := s.ev ++ [.rxDrop .accOverflow],
      responses := s.answered [0x00] }

/-- 41_frame_receiver.md R101: the drain loop ends within `2·⌊L/HDR_LEN⌋ + 2` iterations (no larger number of iterations gives
another state), and when it ends neither stage can progress. -/
def Obligations.DrainEndsWithinItsBound : Prop :=
  ∀ s : State,
    (∀ n, 2 * (s.rx.acc.length / 20) + 2 ≤ n → drainLoop n s = drain s) ∧
    drainStage (drain s) = (.wait, drain s)

/-- 41_frame_receiver.md R102, R104, R112: a partial header is never inspected, and an incomplete payload absorbs every pushed byte,
whatever it is; nothing is discarded and nothing is reported. -/
def Obligations.IncompleteUnitWaits : Prop :=
  ∀ (s : State) (data : ByteString), admits s.params.accCap (s.rx.acc.length + data.length) = true →
    (s.rx.state = .awaitingHeader → s.rx.acc.length + data.length < 20 →
      exec (.rxPush data) s = .next { s with rx := { s.rx with acc := s.rx.acc ++ data }, responses := s.answered [0x00] }) ∧
    (∀ h, s.rx.state = .awaitingPayload → s.rx.hdr = some h → s.rx.acc.length + data.length < h.dataLength.toNat →
      exec (.rxPush data) s = .next { s with rx := { s.rx with acc := s.rx.acc ++ data }, responses := s.answered [0x00] })

/-- 41_frame_receiver.md R103, R111: a header that fails the signature test, and a signed header for another station and of no broadcast
class, discard the whole accumulation buffer, later frames included, and are reported once. -/
def Obligations.RejectedHeaderDiscardsTheBuffer : Prop :=
  ∀ (s : State) (data : ByteString),
    s.rx.state = .awaitingHeader → s.rx.hdr = none → admits s.params.accCap (s.rx.acc.length + data.length) = true →
    20 ≤ s.rx.acc.length + data.length →
    (¬ (rd32 (s.rx.acc ++ data) 0 = 0xDEADBEEF ∧ rd32 (s.rx.acc ++ data) 4 = 0xDEADBEEF) →
      exec (.rxPush data) s = .next { s with
        rx := { state := .awaitingHeader, acc := [], hdr := none }
        ev := s.ev ++ [.rxDrop .invalidSignature]
        responses := s.answered [0x00] }) ∧
    (rd32 (s.rx.acc ++ data) 0 = 0xDEADBEEF → rd32 (s.rx.acc ++ data) 4 = 0xDEADBEEF →
      byteAt (s.rx.acc ++ data) 16 ≠ s.regs.stationId →
      (byteAt (s.rx.acc ++ data) 18).extractLsb' 0 2 ≠ 1 → (byteAt (s.rx.acc ++ data) 18).extractLsb' 0 2 ≠ 2 →
      exec (.rxPush data) s = .next { s with
        rx := { state := .awaitingHeader, acc := [], hdr := none }
        ev := s.ev ++ [.rxDrop .notAddressed]
        responses := s.answered [0x00] })

/-- 41_frame_receiver.md R103, R104: an accepted header whose payload is not complete is consumed and held, the rest is retained, and
nothing is reported. -/
def Obligations.AcceptedHeaderIsHeld : Prop :=
  ∀ (s : State) (data : ByteString) (h : Header) (surplus : ByteString),
    s.rx.state = .awaitingHeader → admits s.params.accCap (s.rx.acc.length + data.length) = true →
    s.rx.acc ++ data = h.bytes ++ surplus → (Frame.mk h surplus).accepted s.regs.stationId →
    surplus.length < h.dataLength.toNat →
    exec (.rxPush data) s = .next { s with
      rx := { state := .awaitingPayload, acc := surplus, hdr := some h }, responses := s.answered [0x00] }

/-- 41_frame_receiver.md R105 to R108, 60_exceptions.md R221, R222, R225, R227: one complete frame pushed on an idle receiver is consumed
on every outcome and reported by exactly one event, the first that applies in the priority order of R227 (`Frame.verdict`). -/
def Obligations.CompleteFrameIsReportedOnce : Prop :=
  ∀ (s : State) (f : Frame), s.receiverIdle → f.complete → admits s.params.accCap (20 + f.payload.length) = true →
    exec (.rxPush f.bytes) s = .next { s.report f with responses := s.answered [0x00] }

/-- 41_frame_receiver.md R109: a sequence of complete accepted frames gives the same events, the same queue and the same state in
however many pieces it is delivered, provided no push overflows, but for the number of responses. -/
def Obligations.DispatchIsIndependentOfChunking : Prop :=
  ∀ (s : State) (frames : List Frame) (chunks : List ByteString), s.receiverIdle →
    (∀ f ∈ frames, f.complete ∧ f.accepted s.regs.stationId) →
    chunks.flatten = frames.flatMap Frame.bytes → NoOverflow chunks s →
    execAll (chunks.map Instr.rxPush) s = .next { frames.foldl State.report s with
      responses := s.responses ++ chunks.map (fun _ => { port := s.port, bytes := [0x00] }) }

/-- 41_frame_receiver.md R111 (90_conflicts.md C5), 60_exceptions.md R226: after a rejected header, a valid frame that starts a push of
its own is received as on an idle receiver. -/
def Obligations.FrameAfterDiscardIsReceived : Prop :=
  ∀ (s t : State) (bad f : Frame), s.receiverIdle → bad.complete → ¬ bad.accepted s.regs.stationId →
    f.complete → f.accepted s.regs.stationId →
    admits s.params.accCap (20 + bad.payload.length) = true → admits s.params.accCap (20 + f.payload.length) = true →
    exec (.rxPush bad.bytes) s = .next t →
    t.receiverIdle ∧ t.mq = s.mq ∧
    exec (.rxPush f.bytes) t = .next { t.report f with responses := t.answered [0x00] }

/-- 41_frame_receiver.md R113, R104, 60_exceptions.md R225: when the payload of a held header completes, it is decoded with the registers
as they are then, and the station id is not looked at again. Surplus bytes of the same push are retained: they are received as a push of
their own would be, after that frame is reported. -/
def Obligations.HeldFrameDecodesWithCurrentRegisters : Prop :=
  ∀ (s u : State) (h : Header) (data payload surplus : ByteString),
    s.rx.state = .awaitingPayload → s.rx.hdr = some h → h.signature = 0xDEADBEEF → h.signature2 = 0xDEADBEEF →
    admits s.params.accCap (s.rx.acc.length + data.length) = true →
    s.rx.acc ++ data = payload ++ surplus → payload.length = h.dataLength.toNat →
    u = { State.report { s with regs := { s.regs with stationId := h.receiverId } } (Frame.mk h payload) with
      regs := s.regs
      rx := { state := .awaitingHeader, acc := [], hdr := none } } →
    (surplus = [] → exec (.rxPush data) s = .next { u with responses := s.answered [0x00] }) ∧
    exec (.rxPush data) s = exec (.rxPush surplus) u

/-- 41_frame_receiver.md R110: RX_CLOSE clears the receiver, emits nothing and touches nothing else. -/
def Obligations.RxCloseClearsTheReceiver : Prop :=
  ∀ s : State, exec .rxClose s = .next { s with
    rx := { state := .awaitingHeader, acc := [], hdr := none }, responses := s.answered [0x00] }

/-- 60_exceptions.md R220: an event carried as bytes, for every count a `u32` holds. -/
def Obligations.EventsAsBytes : Prop :=
  (∀ n : Nat, n < 4294967296 → (Event.queueSizeChanged n).bytes = 0x01 :: le32 (BitVec.ofNat 32 n)) ∧
  (∀ d, (Event.audioReceived d).bytes = 0x02 :: (le32 (BitVec.ofNat 32 d.length) ++ d)) ∧
  (∀ d, (Event.audioStreamReceived d).bytes = 0x03 :: (le32 (BitVec.ofNat 32 d.length) ++ d)) ∧
  [DropReason.invalidSignature, .notAddressed, .checksumMismatch, .allocationFailure, .decodeError, .unsupportedOptions,
    .badTextLength, .accOverflow].map (fun r => (Event.rxDrop r).bytes) =
    [[0x10, 0x01], [0x10, 0x02], [0x10, 0x03], [0x10, 0x04], [0x10, 0x05], [0x10, 0x06], [0x10, 0x07], [0x10, 0x08]]

/-! ### The frame encoder -/

/-- 42_frame_encoder.md R130, R137, 60_exceptions.md R227: raw mode appends the payload as given, whatever the other operands, and
returns its length; a `useHeader` other than 0 and 1 is refused before anything else is looked at. -/
def Obligations.RawWriteAppendsThePayload : Prop :=
  ∀ (s : State) (receiverId opts : Byte) (payload : ByteString),
    exec (.txEncode receiverId opts 0 payload) s = .next { s with
      tx := s.tx ++ payload
      responses := s.answered (0x00 :: le32 (BitVec.ofNat 32 payload.length)) } ∧
    (∀ useHeader : Byte, useHeader ≠ 0 → useHeader ≠ 1 →
      exec (.txEncode receiverId opts useHeader payload) s = .next { s with responses := s.answered [0x03] })

/-- 42_frame_encoder.md R131 (with R134 for TX_SEQ): the framed pipeline, its two refusals in order, the bytes it emits, the register it
writes and the count it returns. -/
def Obligations.FramedEncodeFollowsThePipeline : Prop :=
  ∀ (s : State) (receiverId opts : Byte) (payload raw body wire : ByteString) (key : Byte),
    raw = (if opts.extractLsb' 0 2 = 0 then buildMessage s.params s.regs receiverId payload else payload) →
    body = (if opts.extractLsb' 2 2 = 1 then rleCompress raw s.regs.rleEsc else raw) →
    wire = (if opts.extractLsb' 4 1 = 1 then body.map (fun b => b ^^^ s.regs.txKey) else body) →
    key = (if opts.extractLsb' 4 1 = 1 then s.regs.txKey else 0x00) →
    exec (.txEncode receiverId opts 1 payload) s =
      if opts.extractLsb' 0 2 = 3 ∨ opts.extractLsb' 2 2 = 2 ∨ opts.extractLsb' 2 2 = 3 ∨ opts.extractLsb' 5 3 ≠ 0 then
        .next { s with responses := s.answered [0x04] }
      else if 4294967295 < 20 + body.length then .next { s with responses := s.answered [0x05] }
      else .next { s with
        tx := s.tx ++ (le32 0xDEADBEEF ++ le32 0xDEADBEEF ++ le32 (BitVec.ofNat 32 body.length)
          ++ le32 (BitVec.ofNat 32 raw.length) ++ [receiverId, 0x01, opts, key] ++ wire)
        regs := { s.regs with txSeq := if opts.extractLsb' 0 2 = 0 then s.regs.txSeq + 1 else s.regs.txSeq }
        responses := s.answered (0x00 :: le32 (BitVec.ofNat 32 (20 + body.length))) }

/-- 42_frame_encoder.md R133, 30_encoding.md R84: the Message record, field by field at its offset, MSG_LEN bytes long, its last byte the
checksum of the others. -/
def Obligations.MessageRecordLayout : Prop :=
  ∀ (params : Params) (r : Regs) (receiverId : Byte) (payload m : ByteString), m = buildMessage params r receiverId payload →
    m.length = 12 + params.textCap ∧
    m[0]? = some receiverId ∧ m[1]? = some r.stationId ∧ m[2]? = some r.txPriority ∧
    rd32 m 3 = r.txSeq ∧ rd32 m 7 = r.txTime ∧
    (∀ k, k < params.textCap → m[11 + k]? = some (if k < payload.length then byteAt payload k else 0x00)) ∧
    m[11 + params.textCap]? = some (checksumCompute (m.take (11 + params.textCap)) r.chkDiv.toNat)

/-- 42_frame_encoder.md R135, R132: the relations every emitted header meets, read back from the bytes on the wire. -/
def Obligations.EmittedHeaderRelations : Prop :=
  ∀ (s t : State) (receiverId opts : Byte) (payload frame : ByteString),
    payload.length < 4294967296 → 12 + s.params.textCap < 4294967296 →
    exec (.txEncode receiverId opts 1 payload) s = .next t → t.tx = s.tx ++ frame → frame ≠ [] →
    frame.length = 20 + (parseHeader frame).dataLength.toNat ∧
    (parseHeader frame).signature = 0xDEADBEEF ∧ (parseHeader frame).signature2 = 0xDEADBEEF ∧
    (parseHeader frame).version = 1 ∧ (parseHeader frame).receiverId = receiverId ∧ (parseHeader frame).decodeOpts = opts ∧
    (parseHeader frame).uncompressedLength.toNat =
      (if opts.extractLsb' 0 2 = 0 then 12 + s.params.textCap else payload.length) ∧
    (opts.extractLsb' 2 2 = 0 → (parseHeader frame).dataLength = (parseHeader frame).uncompressedLength) ∧
    t.responses = s.answered (0x00 :: le32 (BitVec.ofNat 32 (20 + (parseHeader frame).dataLength.toNat)))

/-- 42_frame_encoder.md R134: TX_SEQ increments by 1 modulo 2^32 after each TEXT frame, and on no other TX_ENCODE; no TX_ENCODE writes
another register. -/
def Obligations.TxSeqCountsTextFrames : Prop :=
  ∀ (s t : State) (receiverId opts useHeader : Byte) (payload : ByteString),
    exec (.txEncode receiverId opts useHeader payload) s = .next t →
    t.regs = { s.regs with txSeq :=
      if useHeader = 1 ∧ opts.extractLsb' 0 2 = 0 ∧ t.tx ≠ s.tx then s.regs.txSeq + 1 else s.regs.txSeq }

/-- 42_frame_encoder.md R136: what one block's framed TX_ENCODE emits, pushed in any chunking into an idle block that agrees on the escape
byte, the divisor and the text capacity and is addressed, is dispatched exactly once, with the record or the payload given. -/
def Obligations.EncodedFrameIsDispatchedByThePeer : Prop :=
  ∀ (a a' b : State) (receiverId opts : Byte) (payload frame : ByteString) (chunks : List ByteString),
    payload.length < 4294967296 → 12 + a.params.textCap < 4294967296 →
    exec (.txEncode receiverId opts 1 payload) a = .next a' → a'.tx = a.tx ++ frame → frame ≠ [] →
    b.receiverIdle → b.regs.rleEsc = a.regs.rleEsc → b.regs.chkDiv = a.regs.chkDiv → b.params.textCap = a.params.textCap →
    (b.regs.stationId = receiverId ∨ opts.extractLsb' 0 2 = 1 ∨ opts.extractLsb' 0 2 = 2) →
    chunks.flatten = frame → NoOverflow chunks b →
    admits b.params.maxDecode (if opts.extractLsb' 0 2 = 0 then 12 + a.params.textCap else payload.length) = true →
    execAll (chunks.map Instr.rxPush) b = .next { b with
      mq := if opts.extractLsb' 0 2 = 0 then b.mq ++ [buildMessage a.params a.regs receiverId payload] else b.mq
      ev := b.ev ++ [if opts.extractLsb' 0 2 = 0 then .queueSizeChanged (b.mq.length + 1)
        else if opts.extractLsb' 0 2 = 1 then .audioReceived payload else .audioStreamReceived payload]
      responses := b.responses ++ chunks.map (fun _ => { port := b.port, bytes := [0x00] }) }

/-! ### The run-length codec -/

/-- 43_rle_codec.md R152: RLE_COMPRESS answers the compressed string, or TOO_LONG where a `u32` cannot state its length, which needs
an input longer than a third of 2^32-1; it changes nothing else and does not look at `RLE_ESC`. -/
def Obligations.RleCompressAnswers : Prop :=
  ∀ (s : State) (esc : Byte) (input : ByteString),
    exec (.rleCompress esc input) s = (if 4294967295 < (rleCompress input esc).length
      then .next { s with responses := s.answered [0x05] }
      else .next { s with
      responses := s.answered (0x00 :: (le32 (BitVec.ofNat 32 (rleCompress input esc).length) ++ rleCompress input esc)) }) ∧
    (4294967295 < (rleCompress input esc).length → 4294967295 / 3 < input.length)

/-- 43_rle_codec.md R151, R153 with the item sequences of 30_encoding.md R85: RLE_DECOMPRESS of well-formed items answers what they stand
for when that is exactly `expected` bytes, RLE_SHORT when it is fewer; items that stand for more answer RLE_OVERFLOW, whatever follows
them; and after items that fit, a token cut off answers RLE_TRUNCATED and a zero count RLE_ZERO_COUNT, whatever follows. -/
def Obligations.RleDecompressAnswersByItems : Prop :=
  ∀ (s : State) (esc : Byte) (expected : Word) (items : List RleItem), (∀ x ∈ items, x.valid esc) →
    ((items.flatMap RleItem.plain).length = expected.toNat →
      exec (.rleDecompress esc expected (items.flatMap (RleItem.wire esc))) s =
        .next { s with responses := s.answered (0x00 :: (le32 expected ++ items.flatMap RleItem.plain)) }) ∧
    ((items.flatMap RleItem.plain).length < expected.toNat →
      exec (.rleDecompress esc expected (items.flatMap (RleItem.wire esc))) s = .next { s with responses := s.answered [0x09] }) ∧
    (expected.toNat < (items.flatMap RleItem.plain).length → ∀ rest,
      exec (.rleDecompress esc expected (items.flatMap (RleItem.wire esc) ++ rest)) s =
        .next { s with responses := s.answered [0x08] }) ∧
    ((items.flatMap RleItem.plain).length ≤ expected.toNat →
      exec (.rleDecompress esc expected (items.flatMap (RleItem.wire esc) ++ [esc])) s =
        .next { s with responses := s.answered [0x06] } ∧
      (∀ n, exec (.rleDecompress esc expected (items.flatMap (RleItem.wire esc) ++ [esc, n])) s =
        .next { s with responses := s.answered [0x06] }) ∧
      (∀ v rest, exec (.rleDecompress esc expected (items.flatMap (RleItem.wire esc) ++ (esc :: 0x00 :: v :: rest))) s =
        .next { s with responses := s.answered [0x07] }))

/-- 43_rle_codec.md R154: decompressing a compressed string gives it back, for every string and every escape byte. -/
def Obligations.RleRoundTrip : Prop :=
  ∀ (x : ByteString) (e : Byte), x.length ≤ 4294967295 → rleDecompress (rleCompress x e) e x.length = .ok x

/-- 43_rle_codec.md R155: the size bounds of a compressed string. -/
def Obligations.RleSizeBounds : Prop :=
  ∀ (x : ByteString) (e : Byte),
    (rleCompress x e).length ≤ 3 * x.length ∧
    ((rleCompress x e).length = 3 * x.length ↔ x = [] ∨ x = [e]) ∧
    (e ∉ x → (rleCompress x e).length ≤ x.length)

/-- 43_rle_codec.md R150, 30_encoding.md R85: the compressor, run by run. A run that is maximal, or cut at 255 bytes, becomes one token if
its byte is the escape or it is at least 4 bytes long, and literals otherwise, and the rest is compressed after it; nothing becomes
nothing. So the output is a sequence of well-formed items that stand for the input, in which a literal is never the escape byte. -/
def Obligations.RleCompressEmitsWellFormedItems : Prop :=
  (∀ e : Byte, rleCompress [] e = []) ∧
  (∀ (e b : Byte) (n : Nat) (rest : ByteString), 1 ≤ n → n ≤ 255 → (n < 255 → rest.head? ≠ some b) →
    rleCompress (List.replicate n b ++ rest) e =
      (if b = e ∨ 4 ≤ n then [e, BitVec.ofNat 8 n, b] else List.replicate n b) ++ rleCompress rest e) ∧
  (∀ (x : ByteString) (e : Byte), ∃ items : List RleItem,
    (∀ i ∈ items, i.valid e) ∧ rleCompress x e = items.flatMap (RleItem.wire e) ∧ items.flatMap RleItem.plain = x)

/-! ### The XOR cipher and the checksum -/

/-- 44_xor_cipher.md R170, R171: XOR_APPLY answers a string of the same length, each byte XORed with the key. -/
def Obligations.XorApplyAnswers : Prop :=
  ∀ (s : State) (key : Byte) (input : ByteString), ∃ out : ByteString,
    exec (.xorApply key input) s = .next { s with
      responses := s.answered (0x00 :: (le32 (BitVec.ofNat 32 input.length) ++ out)) } ∧
    out.length = input.length ∧ ∀ k, k < input.length → byteAt out k = byteAt input k ^^^ key

/-- 44_xor_cipher.md R172: the cipher keeps the length, undoes itself, and two keys act as their exclusive or. -/
def Obligations.XorCipherIsAnInvolution : Prop :=
  ∀ (x : ByteString) (k1 k2 : Byte),
    (xorBytes x k1).length = x.length ∧ xorBytes (xorBytes x k1) k1 = x ∧ xorBytes (xorBytes x k1) k2 = xorBytes x (k1 ^^^ k2)

/-- 45_checksum.md R181, R182: CHK_COMPUTE answers the checksum and CHK_VERIFY an equality test, for the legal divisors 1 to 256; every
other divisor answers BAD_OPERAND. -/
def Obligations.ChecksumCommandsAnswer : Prop :=
  ∀ (s : State) (divisor : Half) (expected : Byte) (input : ByteString),
    exec (.chkCompute divisor input) s = (if divisor.toNat = 0 ∨ 256 < divisor.toNat
      then .next { s with responses := s.answered [0x03] }
      else .next { s with responses := s.answered [0x00, checksumCompute input divisor.toNat] }) ∧
    exec (.chkVerify divisor expected input) s = (if divisor.toNat = 0 ∨ 256 < divisor.toNat
      then .next { s with responses := s.answered [0x03] }
      else .next { s with
      responses := s.answered [0x00, if checksumCompute input divisor.toNat = expected then 0x01 else 0x00] })

/-- 45_checksum.md R180: the checksum is the sum over the naturals modulo the divisor, fits a byte below the divisor, and equals what an
accumulator that reduces after every byte holds; 0 for the empty string. -/
def Obligations.ChecksumIsTheReducedSum : Prop :=
  ∀ (x : ByteString) (d : Nat), 1 ≤ d → d ≤ 256 →
    (checksumCompute x d).toNat = (x.map BitVec.toNat).sum % d ∧ (checksumCompute x d).toNat < d ∧
    (checksumCompute x d).toNat = x.foldl (fun acc b => (acc + b.toNat) % d) 0 ∧ checksumCompute [] d = 0

/-- 45_checksum.md R183: excluding a byte and zeroing it give the same checksum; every record the encoder builds verifies; the order of
the bytes, and moving an amount from one byte to another, do not matter. -/
def Obligations.ChecksumIgnoresZerosAndOrder : Prop :=
  (∀ (front back : ByteString) (d : Nat), checksumCompute (front ++ [0x00] ++ back) d = checksumCompute (front ++ back) d) ∧
  (∀ (params : Params) (r : Regs) (receiverId : Byte) (payload : ByteString),
    checksumCompute ((buildMessage params r receiverId payload).take (11 + params.textCap)) r.chkDiv.toNat =
      byteAt (buildMessage params r receiverId payload) (11 + params.textCap)) ∧
  (∀ (x y : ByteString) (d : Nat), x.Perm y → checksumCompute x d = checksumCompute y d) ∧
  (∀ (front middle back : ByteString) (b c b' c' : Byte) (d : Nat), b.toNat + c.toNat = b'.toNat + c'.toNat →
    checksumCompute (front ++ [b] ++ middle ++ [c] ++ back) d = checksumCompute (front ++ [b'] ++ middle ++ [c'] ++ back) d)

/-! ### The streaming FIFO -/

/-- 46_streaming_buffer.md R190, R194: SB_RESET empties the FIFO; SB_READ_POS answers the read cursor, saturated. -/
def Obligations.FifoResetAndPosition : Prop :=
  ∀ s : State,
    exec .sbReset s = .next { s with sb := { data := [], rd := 0 }, responses := s.answered [0x00] } ∧
    exec .sbReadPos s = .next { s with responses := s.answered (0x00 :: le32 (BitVec.ofNat 32 (min s.sb.rd 4294967295))) }

/-- 46_streaming_buffer.md R191: SB_APPEND writes all of its bytes at the tail, or none and answers SB_FULL. -/
def Obligations.FifoAppendIsAllOrNothing : Prop :=
  ∀ (s : State) (data : ByteString),
    ((∀ c, s.params.sbCap = some c → s.sb.data.length + data.length ≤ c) →
      exec (.sbAppend data) s = .next { s with
        sb := { data := s.sb.data ++ data, rd := s.sb.rd }, responses := s.answered [0x00] }) ∧
    (∀ c, s.params.sbCap = some c → c < s.sb.data.length + data.length →
      exec (.sbAppend data) s = .next { s with responses := s.answered [0x0A] })

/-- 46_streaming_buffer.md R192: SB_READ returns the unread bytes, at most `maxLength`, and advances the read cursor by as many. -/
def Obligations.FifoReadReturnsUnreadBytes : Prop :=
  ∀ (s : State) (maxLength : Word) (out : ByteString), s.sb.rd ≤ s.sb.data.length →
    out = (s.sb.data.drop s.sb.rd).take maxLength.toNat →
    exec (.sbRead maxLength) s = .next { s with
      sb := { data := s.sb.data, rd := s.sb.rd + out.length },
      responses := s.answered (0x00 :: (le32 (BitVec.ofNat 32 out.length) ++ out)) } ∧
    out.length = min maxLength.toNat (s.sb.data.length - s.sb.rd)

/-- 46_streaming_buffer.md R193: SB_REMOVE_CHUNK discards the first `offset` bytes and shifts the read cursor with the data, or answers
SB_BAD_OFFSET. -/
def Obligations.FifoRemoveChunkShiftsTheCursor : Prop :=
  ∀ (s : State) (offset : Word),
    exec (.sbRemoveChunk offset) s =
      if s.sb.data.length < offset.toNat then .next { s with responses := s.answered [0x0B] }
      else .next { s with
        sb := { data := s.sb.data.drop offset.toNat, rd := if s.sb.rd ≤ offset.toNat then 0 else s.sb.rd - offset.toNat },
        responses := s.answered [0x00] }

/-- 46_streaming_buffer.md R196: between compactions and resets neither cursor moves back, and no byte already appended changes. -/
def Obligations.FifoCursorsOnlyGrow : Prop :=
  ∀ (is : List Instr) (s t : State), (∀ i ∈ is, compacts i = false) → execAll is s = .next t →
    s.sb.data <+: t.sb.data ∧ s.sb.rd ≤ t.sb.rd

/-- 46_streaming_buffer.md R197: with no compaction or reset in between, what is read, in order, followed by what is still unread, is
what was unread followed by what was appended, in order. After SB_REMOVE_CHUNK `k` within the buffered length, what can still be
read is the unread part of the retained suffix. -/
def Obligations.FifoReturnsBytesInOrder : Prop :=
  (∀ (is : List Instr) (s : State), (∀ i ∈ is, compacts i = false) → s.sb.rd ≤ s.sb.data.length →
    (fifoHistory is s).2.1 ++ (fifoHistory is s).2.2.unread = s.unread ++ (fifoHistory is s).1) ∧
  (∀ (s t : State) (k : Word), s.sb.rd ≤ s.sb.data.length → k.toNat ≤ s.sb.data.length →
    exec (.sbRemoveChunk k) s = .next t →
    t.sb.data = s.sb.data.drop k.toNat ∧ t.unread = s.sb.data.drop (max s.sb.rd k.toNat))

/-- 70_reset_and_hazards.md R281, its safe pattern: SB_REMOVE_CHUNK `p`, where SB_READ_POS returned `p` and no compaction or reset ran in
between, answers OK and discards no unread byte. -/
def Obligations.SafeCompactionKeepsUnreadBytes : Prop :=
  ∀ (s t : State) (is : List Instr) (p : Word),
    exec .sbReadPos s = .next { s with responses := s.answered (0x00 :: le32 p) } → s.sb.rd ≤ s.sb.data.length →
    (∀ i ∈ is, compacts i = false) → execAll is s = .next t →
    ∃ u, exec (.sbRemoveChunk p) t = .next u ∧ u.responses = t.answered [0x00] ∧ u.unread = t.unread
end

