-- ==== Sys2Proof/Laws/Bytes.lean ====
section
/-! SUPPORT. Laws/Bytes.lean: the little-endian encodings and the operand readers undo each other (Machine/Bytes.lean). -/

namespace Sys2Proof.Machine

@[simp] theorem le16_length (v : Half) : (le16 v).length = 2 := rfl

@[simp] theorem le32_length (v : Word) : (le32 v).length = 4 := rfl

@[simp] theorem encodeBytes_length (b : ByteString) : (encodeBytes b).length = 4 + b.length := by
  simp [encodeBytes]

@[simp] theorem byteAt_cons_zero (b : Byte) (s : ByteString) : byteAt (b :: s) 0 = b := rfl

@[simp] theorem byteAt_cons_succ (b : Byte) (s : ByteString) (i : Nat) : byteAt (b :: s) (i + 1) = byteAt s i := rfl

@[simp] theorem lengthWord_toNat {n : Nat} (h : n < 4294967296) : (lengthWord n).toNat = n := by
  simp [lengthWord, Nat.mod_eq_of_lt h]

theorem rd16_le16_append (v : Half) (t : ByteString) : rd16 (le16 v ++ t) 0 = v := by
  apply BitVec.eq_of_toNat_eq
  simp only [rd16, le16, List.cons_append, List.nil_append, byteAt_cons_zero, byteAt_cons_succ, BitVec.toNat_ofNat,
    BitVec.extractLsb'_toNat]
  have := v.isLt
  simp only [Nat.shiftRight_eq_div_pow]
  omega

theorem rd32_le32_append (v : Word) (t : ByteString) : rd32 (le32 v ++ t) 0 = v := by
  apply BitVec.eq_of_toNat_eq
  simp only [rd32, le32, List.cons_append, List.nil_append, byteAt_cons_zero, byteAt_cons_succ, BitVec.toNat_ofNat,
    BitVec.extractLsb'_toNat]
  have := v.isLt
  simp only [Nat.shiftRight_eq_div_pow]
  omega

theorem rd32_append (s t : ByteString) (o : Nat) (h : s.length = o) : rd32 (s ++ t) o = rd32 t 0 := by
  subst h
  simp [rd32, byteAt, List.getD_eq_getElem?_getD, List.getElem?_append_right]

theorem byteAt_append (s t : ByteString) (o : Nat) (h : s.length = o) : byteAt (s ++ t) o = byteAt t 0 := by
  subst h
  simp [byteAt, List.getD_eq_getElem?_getD, List.getElem?_append_right]

theorem le32_rd32 (a b c d : Byte) (t : ByteString) : le32 (rd32 (a :: b :: c :: d :: t) 0) = [a, b, c, d] := by
  have ha := a.isLt; have hb := b.isLt; have hc := c.isLt; have hd := d.isLt
  simp only [le32, rd32, byteAt_cons_zero, byteAt_cons_succ, List.cons.injEq, and_true]
  refine ⟨?_, ?_, ?_, ?_⟩ <;> apply BitVec.eq_of_toNat_eq <;>
    simp only [BitVec.extractLsb'_toNat, BitVec.toNat_ofNat, Nat.shiftRight_eq_div_pow] <;> omega

theorem le16_rd16 (a b : Byte) (t : ByteString) : le16 (rd16 (a :: b :: t) 0) = [a, b] := by
  have ha := a.isLt; have hb := b.isLt
  simp only [le16, rd16, byteAt_cons_zero, byteAt_cons_succ, List.cons.injEq, and_true]
  refine ⟨?_, ?_⟩ <;> apply BitVec.eq_of_toNat_eq <;>
    simp only [BitVec.extractLsb'_toNat, BitVec.toNat_ofNat, Nat.shiftRight_eq_div_pow] <;> omega

/-! ### Readers after writers -/

@[simp] theorem takeU8_cons (b : Byte) (t : ByteString) : takeU8 (b :: t) = some (b, t) := rfl

@[simp] theorem takeU16_le16 (v : Half) (t : ByteString) : takeU16 (le16 v ++ t) = some (v, t) := by
  simp only [takeU16, List.length_append, le16_length]
  rw [if_neg (by omega), rd16_le16_append, List.drop_left' (le16_length v)]

@[simp] theorem takeU32_le32 (v : Word) (t : ByteString) : takeU32 (le32 v ++ t) = some (v, t) := by
  simp only [takeU32, List.length_append, le32_length]
  rw [if_neg (by omega), rd32_le32_append, List.drop_left' (le32_length v)]

theorem takeBytes_encodeBytes {b : ByteString} (t : ByteString) (h : b.length < 4294967296) :
    takeBytes (encodeBytes b ++ t) = some (b, t) := by
  simp only [takeBytes, encodeBytes, List.append_assoc, takeU32_le32, lengthWord_toNat h, List.length_append]
  rw [if_neg (by omega), List.take_left' rfl, List.drop_left' rfl]

@[simp] theorem takeEnd_nil {α : Type} (x : α) : takeEnd x [] = some x := rfl

/-! ### What a reader that answers has read -/

theorem takeU8_eq_some {t r : ByteString} {b : Byte} (h : takeU8 t = some (b, r)) : t = b :: r := by
  cases t with
  | nil => simp [takeU8] at h
  | cons c t => simp [takeU8] at h; simp [h]

theorem takeU16_eq_some {t r : ByteString} {v : Half} (h : takeU16 t = some (v, r)) : t = le16 v ++ r := by
  match t with
  | [] => simp [takeU16] at h
  | [a] => simp [takeU16] at h
  | a :: b :: t =>
    simp only [takeU16, List.length_cons, List.drop_succ_cons, List.drop_zero] at h
    rw [if_neg (by omega)] at h
    simp only [Option.some.injEq, Prod.mk.injEq] at h
    obtain ⟨rfl, rfl⟩ := h
    rw [le16_rd16]; rfl

theorem takeU32_eq_some {t r : ByteString} {v : Word} (h : takeU32 t = some (v, r)) : t = le32 v ++ r := by
  match t with
  | [] => simp [takeU32] at h
  | [a] => simp [takeU32] at h
  | [a, b] => simp [takeU32] at h
  | [a, b, c] => simp [takeU32] at h
  | a :: b :: c :: d :: t =>
    simp only [takeU32, List.length_cons, List.drop_succ_cons, List.drop_zero] at h
    rw [if_neg (by omega)] at h
    simp only [Option.some.injEq, Prod.mk.injEq] at h
    obtain ⟨rfl, rfl⟩ := h
    rw [le32_rd32]; rfl

theorem takeBytes_eq_some {t b r : ByteString} (h : takeBytes t = some (b, r)) :
    t = encodeBytes b ++ r ∧ b.length < 4294967296 := by
  simp only [takeBytes] at h
  split at h
  · simp at h
  · rename_i len rest hlen
    split at h
    · simp at h
    · rename_i hle
      simp only [Option.some.injEq, Prod.mk.injEq] at h
      obtain ⟨rfl, rfl⟩ := h
      have hl : (List.take len.toNat rest).length = len.toNat := by rw [List.length_take]; omega
      have hw : lengthWord (List.take len.toNat rest).length = len := by rw [hl]; simp [lengthWord]
      refine ⟨?_, by rw [hl]; exact len.isLt⟩
      rw [takeU32_eq_some hlen, encodeBytes, hw, List.append_assoc, List.take_append_drop]

theorem takeEnd_eq_some {α : Type} {x y : α} {t : ByteString} (h : takeEnd x t = some y) : t = [] ∧ x = y := by
  cases t with
  | nil => simpa [takeEnd] using h
  | cons c t => simp [takeEnd] at h

end Sys2Proof.Machine
end

