-- ==== Sys2Proof/Laws/Operands.lean ====
section
/-! SUPPORT. Laws/Operands.lean: the fields of a decodeOpts byte read as bit fields (30_encoding.md R76), limits, and the header read
back from its bytes (30_encoding.md R75). -/

namespace Sys2Proof.Machine

/-! ### decodeOpts -/

theorem optsClass_text_iff (o : Byte) : optsClass o = .text ↔ o.extractLsb' 0 2 = 0 := by
  revert o; decide +kernel

theorem optsClass_audio_iff (o : Byte) : optsClass o = .audio ↔ o.extractLsb' 0 2 = 1 := by
  revert o; decide +kernel

theorem optsClass_audioStream_iff (o : Byte) : optsClass o = .audioStream ↔ o.extractLsb' 0 2 = 2 := by
  revert o; decide +kernel

theorem optsClass_reserved_iff (o : Byte) : optsClass o = .reserved ↔ o.extractLsb' 0 2 = 3 := by
  revert o; decide +kernel

theorem optsClass_broadcast_iff (o : Byte) :
    (optsClass o).broadcast = true ↔ o.extractLsb' 0 2 = 1 ∨ o.extractLsb' 0 2 = 2 := by
  revert o; decide +kernel

theorem optsCompression_rle_iff (o : Byte) : optsCompression o = .rle ↔ o.extractLsb' 2 2 = 1 := by
  revert o; decide +kernel

theorem optsXor_iff (o : Byte) : optsXor o = true ↔ o.extractLsb' 4 1 = 1 := by
  revert o; decide +kernel

theorem optsUnsupported_iff (o : Byte) :
    optsUnsupported o = true ↔ o.extractLsb' 0 2 = 3 ∨ o.extractLsb' 2 2 = 2 ∨ o.extractLsb' 2 2 = 3 := by
  revert o; decide +kernel

/-! ### Limits -/

theorem admits_mono {l : Limit} {a b : Nat} (h : a ≤ b) (hb : admits l b = true) : admits l a = true := by
  cases l with
  | none => rfl
  | some c => simp [admits] at hb ⊢; omega

theorem admits_eq_false {l : Limit} {n : Nat} : admits l n = false ↔ ∃ c, l = some c ∧ c < n := by
  cases l <;> simp [admits]

/-! ### The header -/

@[simp] theorem Header.bytes_length (h : Header) : h.bytes.length = 20 := rfl

/-- The header parsed from bytes that start with a packed header is that header, field by field. -/
theorem parseHeader_bytes (h : Header) (t : ByteString) : parseHeader (h.bytes ++ t) = h := by
  have second : ∀ (a b : Word) (t : ByteString), rd32 (le32 a ++ (le32 b ++ t)) 4 = b := by
    intro a b t; rw [rd32_append _ _ _ (le32_length a), rd32_le32_append]
  have third : ∀ (a b c : Word) (t : ByteString), rd32 (le32 a ++ (le32 b ++ (le32 c ++ t))) 8 = c := by
    intro a b c t; rw [← List.append_assoc, rd32_append _ _ _ (by simp), rd32_le32_append]
  have fourth : ∀ (a b c d : Word) (t : ByteString), rd32 (le32 a ++ (le32 b ++ (le32 c ++ (le32 d ++ t)))) 12 = d := by
    intro a b c d t
    rw [← List.append_assoc, ← List.append_assoc, rd32_append _ _ _ (by simp), rd32_le32_append]
  unfold parseHeader Header.bytes
  simp only [List.append_assoc, rd32_le32_append, second, third, fourth]
  rfl

/-- Only the first 20 bytes of a byte string are its header. -/
theorem parseHeader_take {a : ByteString} : parseHeader (a.take hdrLen) = parseHeader a := by
  have h : ∀ i, i < 20 → byteAt (a.take hdrLen) i = byteAt a i := by
    intro i hi
    simp [byteAt, List.getD_eq_getElem?_getD, hdrLen, hi]
  simp [parseHeader, rd32, h]

end Sys2Proof.Machine
end

