-- ==== Sys2Proof/Laws/State.lean ====
section
/-! SUPPORT. Laws/State.lean: for each update of Machine/Ops.lean, what each field of the state is after it, so that no proof unfolds
a record update. -/

namespace Sys2Proof.Machine

section respond
variable (s : State) (st : Status) (rs : List Result)

@[simp] theorem State.respond_params : (s.respond st rs).params = s.params := rfl
@[simp] theorem State.respond_regs : (s.respond st rs).regs = s.regs := rfl
@[simp] theorem State.respond_rx : (s.respond st rs).rx = s.rx := rfl
@[simp] theorem State.respond_sb : (s.respond st rs).sb = s.sb := rfl
@[simp] theorem State.respond_tx : (s.respond st rs).tx = s.tx := rfl
@[simp] theorem State.respond_ev : (s.respond st rs).ev = s.ev := rfl
@[simp] theorem State.respond_mq : (s.respond st rs).mq = s.mq := rfl
@[simp] theorem State.respond_p0 : (s.respond st rs).p0 = s.p0 := rfl
@[simp] theorem State.respond_p1 : (s.respond st rs).p1 = s.p1 := rfl
@[simp] theorem State.respond_mqReads : (s.respond st rs).mqReads = s.mqReads := rfl
@[simp] theorem State.respond_port : (s.respond st rs).port = s.port := rfl
@[simp] theorem State.respond_turn : (s.respond st rs).turn = s.turn := rfl
@[simp] theorem State.respond_responses : (s.respond st rs).responses = s.responses ++ [{ port := s.port, bytes := responseBytes st rs }] := rfl
@[simp] theorem State.respond_mqAnswers : (s.respond st rs).mqAnswers = s.mqAnswers := rfl

end respond

section ret
variable (s : State) (rs : List Result)

@[simp] theorem State.ret_params : (s.ret rs).params = s.params := rfl
@[simp] theorem State.ret_regs : (s.ret rs).regs = s.regs := rfl
@[simp] theorem State.ret_rx : (s.ret rs).rx = s.rx := rfl
@[simp] theorem State.ret_sb : (s.ret rs).sb = s.sb := rfl
@[simp] theorem State.ret_tx : (s.ret rs).tx = s.tx := rfl
@[simp] theorem State.ret_ev : (s.ret rs).ev = s.ev := rfl
@[simp] theorem State.ret_mq : (s.ret rs).mq = s.mq := rfl
@[simp] theorem State.ret_p0 : (s.ret rs).p0 = s.p0 := rfl
@[simp] theorem State.ret_p1 : (s.ret rs).p1 = s.p1 := rfl
@[simp] theorem State.ret_mqReads : (s.ret rs).mqReads = s.mqReads := rfl
@[simp] theorem State.ret_port : (s.ret rs).port = s.port := rfl
@[simp] theorem State.ret_turn : (s.ret rs).turn = s.turn := rfl
@[simp] theorem State.ret_responses : (s.ret rs).responses = s.responses ++ [{ port := s.port, bytes := responseBytes .ok rs }] := rfl
@[simp] theorem State.ret_mqAnswers : (s.ret rs).mqAnswers = s.mqAnswers := rfl

end ret

section raise
variable (s : State) (st : Status)

@[simp] theorem State.raise_params : (s.raise st).params = s.params := rfl
@[simp] theorem State.raise_regs : (s.raise st).regs = s.regs := rfl
@[simp] theorem State.raise_rx : (s.raise st).rx = s.rx := rfl
@[simp] theorem State.raise_sb : (s.raise st).sb = s.sb := rfl
@[simp] theorem State.raise_tx : (s.raise st).tx = s.tx := rfl
@[simp] theorem State.raise_ev : (s.raise st).ev = s.ev := rfl
@[simp] theorem State.raise_mq : (s.raise st).mq = s.mq := rfl
@[simp] theorem State.raise_p0 : (s.raise st).p0 = s.p0 := rfl
@[simp] theorem State.raise_p1 : (s.raise st).p1 = s.p1 := rfl
@[simp] theorem State.raise_mqReads : (s.raise st).mqReads = s.mqReads := rfl
@[simp] theorem State.raise_port : (s.raise st).port = s.port := rfl
@[simp] theorem State.raise_turn : (s.raise st).turn = s.turn := rfl
@[simp] theorem State.raise_responses : (s.raise st).responses = s.responses ++ [{ port := s.port, bytes := responseBytes st [] }] := rfl
@[simp] theorem State.raise_mqAnswers : (s.raise st).mqAnswers = s.mqAnswers := rfl

end raise

section emit
variable (s : State) (e : Event)

@[simp] theorem State.emit_params : (s.emit e).params = s.params := rfl
@[simp] theorem State.emit_regs : (s.emit e).regs = s.regs := rfl
@[simp] theorem State.emit_rx : (s.emit e).rx = s.rx := rfl
@[simp] theorem State.emit_sb : (s.emit e).sb = s.sb := rfl
@[simp] theorem State.emit_tx : (s.emit e).tx = s.tx := rfl
@[simp] theorem State.emit_ev : (s.emit e).ev = s.ev ++ [e] := rfl
@[simp] theorem State.emit_mq : (s.emit e).mq = s.mq := rfl
@[simp] theorem State.emit_p0 : (s.emit e).p0 = s.p0 := rfl
@[simp] theorem State.emit_p1 : (s.emit e).p1 = s.p1 := rfl
@[simp] theorem State.emit_mqReads : (s.emit e).mqReads = s.mqReads := rfl
@[simp] theorem State.emit_port : (s.emit e).port = s.port := rfl
@[simp] theorem State.emit_turn : (s.emit e).turn = s.turn := rfl
@[simp] theorem State.emit_responses : (s.emit e).responses = s.responses := rfl
@[simp] theorem State.emit_mqAnswers : (s.emit e).mqAnswers = s.mqAnswers := rfl

end emit

section drop
variable (s : State) (r : DropReason)

@[simp] theorem State.drop_params : (s.drop r).params = s.params := rfl
@[simp] theorem State.drop_regs : (s.drop r).regs = s.regs := rfl
@[simp] theorem State.drop_rx : (s.drop r).rx = s.rx := rfl
@[simp] theorem State.drop_sb : (s.drop r).sb = s.sb := rfl
@[simp] theorem State.drop_tx : (s.drop r).tx = s.tx := rfl
@[simp] theorem State.drop_ev : (s.drop r).ev = s.ev ++ [.rxDrop r] := rfl
@[simp] theorem State.drop_mq : (s.drop r).mq = s.mq := rfl
@[simp] theorem State.drop_p0 : (s.drop r).p0 = s.p0 := rfl
@[simp] theorem State.drop_p1 : (s.drop r).p1 = s.p1 := rfl
@[simp] theorem State.drop_mqReads : (s.drop r).mqReads = s.mqReads := rfl
@[simp] theorem State.drop_port : (s.drop r).port = s.port := rfl
@[simp] theorem State.drop_turn : (s.drop r).turn = s.turn := rfl
@[simp] theorem State.drop_responses : (s.drop r).responses = s.responses := rfl
@[simp] theorem State.drop_mqAnswers : (s.drop r).mqAnswers = s.mqAnswers := rfl

end drop

section txEmit
variable (s : State) (b : ByteString)

@[simp] theorem State.txEmit_params : (s.txEmit b).params = s.params := rfl
@[simp] theorem State.txEmit_regs : (s.txEmit b).regs = s.regs := rfl
@[simp] theorem State.txEmit_rx : (s.txEmit b).rx = s.rx := rfl
@[simp] theorem State.txEmit_sb : (s.txEmit b).sb = s.sb := rfl
@[simp] theorem State.txEmit_tx : (s.txEmit b).tx = s.tx ++ b := rfl
@[simp] theorem State.txEmit_ev : (s.txEmit b).ev = s.ev := rfl
@[simp] theorem State.txEmit_mq : (s.txEmit b).mq = s.mq := rfl
@[simp] theorem State.txEmit_p0 : (s.txEmit b).p0 = s.p0 := rfl
@[simp] theorem State.txEmit_p1 : (s.txEmit b).p1 = s.p1 := rfl
@[simp] theorem State.txEmit_mqReads : (s.txEmit b).mqReads = s.mqReads := rfl
@[simp] theorem State.txEmit_port : (s.txEmit b).port = s.port := rfl
@[simp] theorem State.txEmit_turn : (s.txEmit b).turn = s.turn := rfl
@[simp] theorem State.txEmit_responses : (s.txEmit b).responses = s.responses := rfl
@[simp] theorem State.txEmit_mqAnswers : (s.txEmit b).mqAnswers = s.mqAnswers := rfl

end txEmit

section enqueue
variable (s : State) (d : Record)

@[simp] theorem State.enqueue_params : (s.enqueue d).params = s.params := rfl
@[simp] theorem State.enqueue_regs : (s.enqueue d).regs = s.regs := rfl
@[simp] theorem State.enqueue_rx : (s.enqueue d).rx = s.rx := rfl
@[simp] theorem State.enqueue_sb : (s.enqueue d).sb = s.sb := rfl
@[simp] theorem State.enqueue_tx : (s.enqueue d).tx = s.tx := rfl
@[simp] theorem State.enqueue_ev : (s.enqueue d).ev = s.ev ++ [.queueSizeChanged (s.mq.length + 1)] := rfl
@[simp] theorem State.enqueue_mq : (s.enqueue d).mq = s.mq ++ [d] := rfl
@[simp] theorem State.enqueue_p0 : (s.enqueue d).p0 = s.p0 := rfl
@[simp] theorem State.enqueue_p1 : (s.enqueue d).p1 = s.p1 := rfl
@[simp] theorem State.enqueue_mqReads : (s.enqueue d).mqReads = s.mqReads := rfl
@[simp] theorem State.enqueue_port : (s.enqueue d).port = s.port := rfl
@[simp] theorem State.enqueue_turn : (s.enqueue d).turn = s.turn := rfl
@[simp] theorem State.enqueue_responses : (s.enqueue d).responses = s.responses := rfl
@[simp] theorem State.enqueue_mqAnswers : (s.enqueue d).mqAnswers = s.mqAnswers := rfl

end enqueue

section setRx
variable (s : State) (rx : Rx)

@[simp] theorem State.setRx_params : (s.setRx rx).params = s.params := rfl
@[simp] theorem State.setRx_regs : (s.setRx rx).regs = s.regs := rfl
@[simp] theorem State.setRx_rx : (s.setRx rx).rx = rx := rfl
@[simp] theorem State.setRx_sb : (s.setRx rx).sb = s.sb := rfl
@[simp] theorem State.setRx_tx : (s.setRx rx).tx = s.tx := rfl
@[simp] theorem State.setRx_ev : (s.setRx rx).ev = s.ev := rfl
@[simp] theorem State.setRx_mq : (s.setRx rx).mq = s.mq := rfl
@[simp] theorem State.setRx_p0 : (s.setRx rx).p0 = s.p0 := rfl
@[simp] theorem State.setRx_p1 : (s.setRx rx).p1 = s.p1 := rfl
@[simp] theorem State.setRx_mqReads : (s.setRx rx).mqReads = s.mqReads := rfl
@[simp] theorem State.setRx_port : (s.setRx rx).port = s.port := rfl
@[simp] theorem State.setRx_turn : (s.setRx rx).turn = s.turn := rfl
@[simp] theorem State.setRx_responses : (s.setRx rx).responses = s.responses := rfl
@[simp] theorem State.setRx_mqAnswers : (s.setRx rx).mqAnswers = s.mqAnswers := rfl

end setRx

section setAcc
variable (s : State) (acc : ByteString)

@[simp] theorem State.setAcc_params : (s.setAcc acc).params = s.params := rfl
@[simp] theorem State.setAcc_regs : (s.setAcc acc).regs = s.regs := rfl
@[simp] theorem State.setAcc_rx : (s.setAcc acc).rx = { s.rx with acc := acc } := rfl
@[simp] theorem State.setAcc_sb : (s.setAcc acc).sb = s.sb := rfl
@[simp] theorem State.setAcc_tx : (s.setAcc acc).tx = s.tx := rfl
@[simp] theorem State.setAcc_ev : (s.setAcc acc).ev = s.ev := rfl
@[simp] theorem State.setAcc_mq : (s.setAcc acc).mq = s.mq := rfl
@[simp] theorem State.setAcc_p0 : (s.setAcc acc).p0 = s.p0 := rfl
@[simp] theorem State.setAcc_p1 : (s.setAcc acc).p1 = s.p1 := rfl
@[simp] theorem State.setAcc_mqReads : (s.setAcc acc).mqReads = s.mqReads := rfl
@[simp] theorem State.setAcc_port : (s.setAcc acc).port = s.port := rfl
@[simp] theorem State.setAcc_turn : (s.setAcc acc).turn = s.turn := rfl
@[simp] theorem State.setAcc_responses : (s.setAcc acc).responses = s.responses := rfl
@[simp] theorem State.setAcc_mqAnswers : (s.setAcc acc).mqAnswers = s.mqAnswers := rfl

end setAcc

section setSb
variable (s : State) (sb : Sb)

@[simp] theorem State.setSb_params : (s.setSb sb).params = s.params := rfl
@[simp] theorem State.setSb_regs : (s.setSb sb).regs = s.regs := rfl
@[simp] theorem State.setSb_rx : (s.setSb sb).rx = s.rx := rfl
@[simp] theorem State.setSb_sb : (s.setSb sb).sb = sb := rfl
@[simp] theorem State.setSb_tx : (s.setSb sb).tx = s.tx := rfl
@[simp] theorem State.setSb_ev : (s.setSb sb).ev = s.ev := rfl
@[simp] theorem State.setSb_mq : (s.setSb sb).mq = s.mq := rfl
@[simp] theorem State.setSb_p0 : (s.setSb sb).p0 = s.p0 := rfl
@[simp] theorem State.setSb_p1 : (s.setSb sb).p1 = s.p1 := rfl
@[simp] theorem State.setSb_mqReads : (s.setSb sb).mqReads = s.mqReads := rfl
@[simp] theorem State.setSb_port : (s.setSb sb).port = s.port := rfl
@[simp] theorem State.setSb_turn : (s.setSb sb).turn = s.turn := rfl
@[simp] theorem State.setSb_responses : (s.setSb sb).responses = s.responses := rfl
@[simp] theorem State.setSb_mqAnswers : (s.setSb sb).mqAnswers = s.mqAnswers := rfl

end setSb

section writeReg
variable (s : State) (r : Reg) (v : Word)

@[simp] theorem State.writeReg_params : (s.writeReg r v).params = s.params := rfl
@[simp] theorem State.writeReg_regs : (s.writeReg r v).regs = s.regs.write r v := rfl
@[simp] theorem State.writeReg_rx : (s.writeReg r v).rx = s.rx := rfl
@[simp] theorem State.writeReg_sb : (s.writeReg r v).sb = s.sb := rfl
@[simp] theorem State.writeReg_tx : (s.writeReg r v).tx = s.tx := rfl
@[simp] theorem State.writeReg_ev : (s.writeReg r v).ev = s.ev := rfl
@[simp] theorem State.writeReg_mq : (s.writeReg r v).mq = s.mq := rfl
@[simp] theorem State.writeReg_p0 : (s.writeReg r v).p0 = s.p0 := rfl
@[simp] theorem State.writeReg_p1 : (s.writeReg r v).p1 = s.p1 := rfl
@[simp] theorem State.writeReg_mqReads : (s.writeReg r v).mqReads = s.mqReads := rfl
@[simp] theorem State.writeReg_port : (s.writeReg r v).port = s.port := rfl
@[simp] theorem State.writeReg_turn : (s.writeReg r v).turn = s.turn := rfl
@[simp] theorem State.writeReg_responses : (s.writeReg r v).responses = s.responses := rfl
@[simp] theorem State.writeReg_mqAnswers : (s.writeReg r v).mqAnswers = s.mqAnswers := rfl

end writeReg

section resetBlock
variable (s : State)

@[simp] theorem State.resetBlock_params : (s.resetBlock).params = s.params := rfl
@[simp] theorem State.resetBlock_regs : (s.resetBlock).regs = Regs.reset := rfl
@[simp] theorem State.resetBlock_rx : (s.resetBlock).rx = Rx.reset := rfl
@[simp] theorem State.resetBlock_sb : (s.resetBlock).sb = Sb.reset := rfl
@[simp] theorem State.resetBlock_tx : (s.resetBlock).tx = s.tx := rfl
@[simp] theorem State.resetBlock_ev : (s.resetBlock).ev = s.ev := rfl
@[simp] theorem State.resetBlock_mq : (s.resetBlock).mq = s.mq := rfl
@[simp] theorem State.resetBlock_p0 : (s.resetBlock).p0 = s.p0 := rfl
@[simp] theorem State.resetBlock_p1 : (s.resetBlock).p1 = s.p1 := rfl
@[simp] theorem State.resetBlock_mqReads : (s.resetBlock).mqReads = s.mqReads := rfl
@[simp] theorem State.resetBlock_port : (s.resetBlock).port = s.port := rfl
@[simp] theorem State.resetBlock_turn : (s.resetBlock).turn = s.turn := rfl
@[simp] theorem State.resetBlock_responses : (s.resetBlock).responses = s.responses := rfl
@[simp] theorem State.resetBlock_mqAnswers : (s.resetBlock).mqAnswers = s.mqAnswers := rfl

end resetBlock

section serveMessage
variable (s : State)

@[simp] theorem State.serveMessage_params : (s.serveMessage).params = s.params := rfl
@[simp] theorem State.serveMessage_regs : (s.serveMessage).regs = s.regs := rfl
@[simp] theorem State.serveMessage_rx : (s.serveMessage).rx = s.rx := rfl
@[simp] theorem State.serveMessage_sb : (s.serveMessage).sb = s.sb := rfl
@[simp] theorem State.serveMessage_tx : (s.serveMessage).tx = s.tx := rfl
@[simp] theorem State.serveMessage_ev : (s.serveMessage).ev = s.ev := rfl
@[simp] theorem State.serveMessage_mq : (s.serveMessage).mq = s.mq.drop 1 := rfl
@[simp] theorem State.serveMessage_p0 : (s.serveMessage).p0 = s.p0 := rfl
@[simp] theorem State.serveMessage_p1 : (s.serveMessage).p1 = s.p1 := rfl
@[simp] theorem State.serveMessage_mqReads : (s.serveMessage).mqReads = s.mqReads - 1 := rfl
@[simp] theorem State.serveMessage_port : (s.serveMessage).port = s.port := rfl
@[simp] theorem State.serveMessage_turn : (s.serveMessage).turn = s.turn + 1 := rfl
@[simp] theorem State.serveMessage_responses : (s.serveMessage).responses = s.responses := rfl
@[simp] theorem State.serveMessage_mqAnswers : (s.serveMessage).mqAnswers = s.mqAnswers ++ [s.mq.head?] := rfl

end serveMessage

/-! ### The reset state -/

@[simp] theorem State.resetWith_params (params : Params) : (State.resetWith params).params = params := rfl
@[simp] theorem State.resetWith_regs (params : Params) : (State.resetWith params).regs = Regs.reset := rfl
@[simp] theorem State.resetWith_rx (params : Params) : (State.resetWith params).rx = Rx.reset := rfl
@[simp] theorem State.resetWith_sb (params : Params) : (State.resetWith params).sb = Sb.reset := rfl
@[simp] theorem State.resetWith_tx (params : Params) : (State.resetWith params).tx = [] := rfl
@[simp] theorem State.resetWith_ev (params : Params) : (State.resetWith params).ev = [] := rfl
@[simp] theorem State.resetWith_mq (params : Params) : (State.resetWith params).mq = [] := rfl
@[simp] theorem State.resetWith_p0 (params : Params) : (State.resetWith params).p0 = [] := rfl
@[simp] theorem State.resetWith_p1 (params : Params) : (State.resetWith params).p1 = [] := rfl
@[simp] theorem State.resetWith_mqReads (params : Params) : (State.resetWith params).mqReads = 0 := rfl
@[simp] theorem State.resetWith_port (params : Params) : (State.resetWith params).port = .p0 := rfl
@[simp] theorem State.resetWith_turn (params : Params) : (State.resetWith params).turn = 0 := rfl
@[simp] theorem State.resetWith_responses (params : Params) : (State.resetWith params).responses = [] := rfl
@[simp] theorem State.resetWith_mqAnswers (params : Params) : (State.resetWith params).mqAnswers = [] := rfl

theorem State.reset_eq_resetWith : State.reset = State.resetWith Params.default := rfl

end Sys2Proof.Machine
end

