-- ==== Sys2Proof/Laws/Ops.lean ====
section
/-! SUPPORT. Laws/Ops.lean: what each shared operation can do, said once: taking a transaction, granting an agent, the FIFO operations,
the checksum, the cipher, the receiver's stages and the encoder. -/

namespace Sys2Proof.Machine

/-! ### What stands at the ports -/

/-- A port that takes a transaction takes its oldest one, and only its queue, the port and the turn change. -/
theorem State.take_eq_some {s s' : State} {p : Port} {t : ByteString} (h : s.take p = some (t, s')) :
    ∃ q, s.pending p = t :: q ∧ s' = { s.setPending p q with port := p, turn := s.turn + 1 } := by
  unfold State.take at h
  split at h
  · cases h
  · rename_i t' q hq
    cases h
    exact ⟨q, hq, rfl⟩

theorem State.take_of_pending {s : State} {p : Port} {t : ByteString} {q : List ByteString} (h : s.pending p = t :: q) :
    s.take p = some (t, { s.setPending p q with port := p, turn := s.turn + 1 }) := by
  simp [State.take, h]

theorem honoured_eq_some {w : List Agent} {wish : Option Agent} {a : Agent} (h : honoured w wish = some a) :
    wish = some a ∧ a ∈ w := by
  simpa [honoured, Option.filter_eq_some_iff] using h

/-- Where one agent waits it is granted; where several wait, one of them is. -/
theorem State.granted_mem_waiting {s : State} {a : Agent} (h : s.granted = some a) : a ∈ s.waiting := by
  unfold State.granted at h
  split at h
  · cases h
  · rename_i b hb; cases h; simp [hb]
  · rename_i b c rest hb
    rw [hb, ← Option.some.inj h]
    cases h1 : honoured (b :: c :: rest) ((reservedFor s.turn).map .port) with
    | some x => simpa using (honoured_eq_some h1).2
    | none =>
      cases h2 : honoured (b :: c :: rest) (Config.grant s.turn) with
      | some x => simpa using (honoured_eq_some h2).2
      | none => simp

theorem State.granted_eq_none_iff {s : State} : s.granted = none ↔ s.waiting = [] := by
  unfold State.granted
  split <;> simp [*]

/-- A port waits when a transaction stands at it. -/
theorem State.port_mem_waiting_iff {s : State} {p : Port} : Agent.port p ∈ s.waiting ↔ s.pending p ≠ [] := by
  cases p <;> simp [State.waiting, State.pending]

/-- A port that waits is granted at a turn reserved for it (70_reset_and_hazards.md R290). -/
theorem State.granted_of_reserved {s : State} {p : Port} (h : s.pending p ≠ []) (hr : reservedFor s.turn = some p) :
    s.granted = some (.port p) := by
  have hw := State.port_mem_waiting_iff.2 h
  unfold State.granted
  split
  · rename_i hn; rw [hn] at hw; cases hw
  · rename_i a ha; rw [ha, List.mem_singleton] at hw; rw [hw]
  · rename_i a b rest ha
    rw [ha] at hw
    have hh : honoured (a :: b :: rest) ((reservedFor s.turn).map .port) = some (.port p) := by
      rw [hr, Option.map_some, honoured, Option.filter_some, if_pos (by simpa using hw)]
    rw [hh]
    rfl

/-- The rota ends every block: after the turns left in a block comes the next block. -/
theorem rota_add_left {n block left : Nat} (h : rota n = (block, left)) : rota (n + left) = (block, 0) := by
  induction left generalizing n with
  | zero => exact h
  | succ left ih =>
    have h1 : rota (n + 1) = (block, left) := by rw [rota, h]
    rw [show n + (left + 1) = n + 1 + left by omega, ih h1]

/-- After every turn, each port has a turn reserved for it (70_reset_and_hazards.md R290). -/
theorem exists_reservedFor (n : Nat) (p : Port) : ∃ m, n ≤ m ∧ reservedFor m = some p := by
  have h1 := rota_add_left (n := n) rfl
  have h2 : rota (n + (rota n).2 + 1) = ((rota n).1 + 1, Config.patience ((rota n).1 + 1)) := by rw [rota, h1]
  have h3 := rota_add_left h2
  by_cases hp : blockPort (rota n).1 = p
  · exact ⟨n + (rota n).2, by omega, by rw [reservedFor, h1, ← hp]⟩
  · refine ⟨n + (rota n).2 + 1 + Config.patience ((rota n).1 + 1), by omega, ?_⟩
    rw [reservedFor, h3]
    revert hp
    unfold blockPort
    cases p <;> by_cases hb : (rota n).1 % 2 = 0 <;> simp [hb] <;> omega

/-! ### The FIFO -/

/-- The bytes an SB_READ returns are at most `maxLength` of those not yet read. -/
theorem Sb.readBytes_eq (b : Sb) (n : Nat) : b.readBytes n = (b.data.drop b.rd).take n := by
  rw [Sb.readBytes, Sb.readCount, ← List.length_drop, List.take_eq_take_iff]
  omega

theorem Sb.readBytes_length (b : Sb) (n : Nat) : (b.readBytes n).length = b.readCount n := by
  rw [Sb.readBytes_eq, List.length_take, List.length_drop, Sb.readCount]

/-! ### The cipher and the checksum -/

@[simp] theorem xorBytes_length (x : ByteString) (k : Byte) : (xorBytes x k).length = x.length := by simp [xorBytes]

@[simp] theorem byteSum_nil : byteSum [] = 0 := rfl

@[simp] theorem byteSum_cons (b : Byte) (x : ByteString) : byteSum (b :: x) = b.toNat + byteSum x := rfl

theorem byteSum_append (x y : ByteString) : byteSum (x ++ y) = byteSum x + byteSum y := by
  induction x with
  | nil => simp
  | cons b x ih => simp [ih, Nat.add_assoc]

/-! ### The receiver -/

/-- Reporting a frame touches the events and the queue only: the rest of the state is kept. -/
theorem dispatch_frame (d : ByteString) (h : Header) (s : State) :
    dispatch d h s = { s with ev := (dispatch d h s).ev, mq := (dispatch d h s).mq } := by
  unfold dispatch
  split
  · unfold dispatchText
    split
    · rfl
    · split <;> rfl
  all_goals rfl

theorem processPayload_frame (p : ByteString) (h : Header) (s : State) :
    processPayload p h s = { s with ev := (processPayload p h s).ev, mq := (processPayload p h s).mq } := by
  unfold processPayload
  split
  · rfl
  · split
    · rfl
    · exact dispatch_frame _ _ _

/-- A processed payload is reported by exactly one event, and adds at most one record, of MSG_LEN bytes, to the queue. -/
theorem processPayload_reports (p : ByteString) (h : Header) (s : State) :
    ∃ e, (processPayload p h s).ev = s.ev ++ [e] ∧
      ((processPayload p h s).mq = s.mq ∨
        ∃ d, (processPayload p h s).mq = s.mq ++ [d] ∧ d.length = msgLen s.params) := by
  unfold processPayload
  split
  · exact ⟨_, rfl, .inl rfl⟩
  · split
    · exact ⟨_, rfl, .inl rfl⟩
    · unfold dispatch
      split
      · unfold dispatchText
        split
        · exact ⟨_, rfl, .inl rfl⟩
        · rename_i hlen
          split
          · exact ⟨_, rfl, .inr ⟨_, rfl, by simpa using hlen⟩⟩
          · exact ⟨_, rfl, .inl rfl⟩
      all_goals exact ⟨_, rfl, .inl rfl⟩

/-- What HeaderStage can do: wait on a partial header, discard with one event, or accept a header. -/
theorem headerStage_cases (s : State) :
    (s.rx.acc.length < hdrLen ∧ headerStage s = (.wait, s)) ∨
    (hdrLen ≤ s.rx.acc.length ∧ ∃ r, (r = .invalidSignature ∨ r = .notAddressed) ∧
      headerStage s = (.wait, (s.setAcc []).drop r)) ∨
    (hdrLen ≤ s.rx.acc.length ∧ ∃ h, h = parseHeader (s.rx.acc.take hdrLen) ∧ h.signed = true ∧
      h.addressedTo s.regs.stationId = true ∧
      headerStage s = (.progress, s.setRx { state := .awaitingPayload, acc := s.rx.acc.drop hdrLen, hdr := some h })) := by
  unfold headerStage
  split
  · exact .inl ⟨‹_›, rfl⟩
  · have hl : hdrLen ≤ s.rx.acc.length := by omega
    split
    · exact .inr (.inl ⟨hl, _, .inl rfl, rfl⟩)
    · rename_i hs
      split
      · exact .inr (.inr ⟨hl, _, rfl, by simpa using hs, ‹_›, rfl⟩)
      · exact .inr (.inl ⟨hl, _, .inr rfl, rfl⟩)

/-- What PayloadStage can do: wait, or consume exactly the declared payload and process it. -/
theorem payloadStage_cases (s : State) :
    (s.rx.hdr = none ∧ payloadStage s = (.wait, s)) ∨
    (∃ h, s.rx.hdr = some h ∧ s.rx.acc.length < h.dataLength.toNat ∧ payloadStage s = (.wait, s)) ∨
    (∃ h, s.rx.hdr = some h ∧ h.dataLength.toNat ≤ s.rx.acc.length ∧
      payloadStage s = (.progress, processPayload (s.rx.acc.take h.dataLength.toNat) h
        (s.setRx { state := .awaitingHeader, acc := s.rx.acc.drop h.dataLength.toNat, hdr := none }))) := by
  unfold payloadStage
  split
  · exact .inl ⟨‹_›, rfl⟩
  · rename_i h hh
    split
    · exact .inr (.inl ⟨h, hh, ‹_›, rfl⟩)
    · exact .inr (.inr ⟨h, hh, by omega, rfl⟩)

/-! ### The encoder -/

@[simp] theorem textField_length (cap : Nat) (payload : ByteString) : (textField cap payload).length = cap := by
  simp [textField]

/-- A record is MSG_LEN bytes long. -/
theorem buildMessage_length (params : Params) (r : Regs) (receiverId : Byte) (payload : ByteString) :
    (buildMessage params r receiverId payload).length = msgLen params := by
  simp [buildMessage, recordBody, le32, msgLen]
  omega

/-- A frame on the wire is a header and the compressed payload's length. -/
theorem wireFrame_length (params : Params) (r : Regs) (receiverId opts : Byte) (payload : ByteString) :
    (wireFrame params r receiverId opts payload).length = hdrLen + (framedBody params r receiverId opts payload).length := by
  simp only [wireFrame, wirePayload, Header.bytes, List.length_append, le32_length, List.length_cons, List.length_nil, hdrLen]
  split <;> simp

/-- What a framed TX_ENCODE can do: refuse the options, refuse the length, or emit one frame and answer its length. -/
theorem encodeFramed_cases (receiverId opts : Byte) (payload : ByteString) (s : State) :
    (encoderRefuses opts = true ∧ encodeFramed receiverId opts payload s = s.raise .unsupported) ∨
    (encoderRefuses opts = false ∧ maxU32 < hdrLen + (framedBody s.params s.regs receiverId opts payload).length ∧
      encodeFramed receiverId opts payload s = s.raise .tooLong) ∨
    (encoderRefuses opts = false ∧ hdrLen + (framedBody s.params s.regs receiverId opts payload).length ≤ maxU32 ∧
      encodeFramed receiverId opts payload s =
        ({ s.txEmit (wireFrame s.params s.regs receiverId opts payload) with regs := s.regs.afterFrame opts } : State).ret
          [.u32 (lengthWord (hdrLen + (framedBody s.params s.regs receiverId opts payload).length))]) := by
  unfold encodeFramed
  split
  · exact .inl ⟨‹_›, rfl⟩
  · rename_i hr
    have hr' : encoderRefuses opts = false := by simpa using hr
    split
    · exact .inr (.inl ⟨hr', ‹_›, rfl⟩)
    · exact .inr (.inr ⟨hr', by omega, rfl⟩)

end Sys2Proof.Machine
end

