-- ==== Sys2Proof/Laws/PerInstr.lean ====
section
/-! SUPPORT. Laws/PerInstr.lean: the family EncodedLength, one lemma per command: a well-formed command's transaction has exactly the
length its opcode and length prefixes state (30_encoding.md R70, R71). -/

namespace Sys2Proof.Laws.EncodedLength

open Sys2Proof Sys2Proof.Machine

/-- The transaction of a well-formed command starts with its opcode, which the table holds, and is as long as it says it is. -/
def Statement (i : Instr) : Prop :=
  Opcode.ofByte i.opcode.code = some i.opcode ∧
  (i.wellFormed = true → (encode i).length = commandLength (encode i))

theorem fits_lt {b : ByteString} (h : ByteString.fits b = true) : b.length < 4294967296 := by
  simpa [ByteString.fits] using h

theorem width_bytes {b : ByteString} (h : b.length < 4294967296) :
    operandsWidth [.bytes] (encodeBytes b) = 4 + b.length := by
  simp only [operandsWidth, encodeBytes, rd32_le32_append, lengthWord_toNat h, Nat.add_zero]

theorem ofByte_code (op : Opcode) : Opcode.ofByte op.code = some op := by cases op <;> decide

theorem commandLength_encode (i : Instr) :
    commandLength (encode i) = 1 + operandsWidth i.opcode.operands (encodeOperands i) := by
  simp only [encode, commandLength, ofByte_code]

theorem of_width {i : Instr}
    (h : i.wellFormed = true → (encodeOperands i).length = operandsWidth i.opcode.operands (encodeOperands i)) : Statement i :=
  ⟨ofByte_code _, fun hw => by rw [commandLength_encode, ← h hw, encode, List.length_cons, Nat.add_comm]⟩

theorem cfgWrite (reg : Byte) (value : Word) : Statement (.cfgWrite reg value) := of_width fun _ => rfl

theorem cfgRead (reg : Byte) : Statement (.cfgRead reg) := of_width fun _ => rfl

theorem reset : Statement .reset := of_width fun _ => rfl

theorem rxPush (data : ByteString) : Statement (.rxPush data) := of_width fun h => by
  simp only [encodeOperands, Instr.opcode, Opcode.operands, width_bytes (fits_lt h), encodeBytes_length]

theorem rxClose : Statement .rxClose := of_width fun _ => rfl

theorem txEncode (a b c : Byte) (payload : ByteString) : Statement (.txEncode a b c payload) := of_width fun h => by
  simp only [encodeOperands, Instr.opcode, Opcode.operands, operandsWidth, List.cons_append, List.nil_append, List.drop_succ_cons,
    List.drop_zero, List.length_cons, encodeBytes, List.length_append, le32_length, rd32_le32_append, lengthWord_toNat (fits_lt h)]
  omega

theorem rleCompress (esc : Byte) (input : ByteString) : Statement (.rleCompress esc input) := of_width fun h => by
  simp only [encodeOperands, Instr.opcode, Opcode.operands, operandsWidth, List.cons_append, List.nil_append, List.drop_succ_cons,
    List.drop_zero, List.length_cons, encodeBytes, List.length_append, le32_length, rd32_le32_append, lengthWord_toNat (fits_lt h)]
  omega

theorem rleDecompress (esc : Byte) (expected : Word) (input : ByteString) : Statement (.rleDecompress esc expected input) :=
  of_width fun h => by
    simp only [encodeOperands, Instr.opcode, Opcode.operands, operandsWidth, List.cons_append, List.nil_append,
      List.drop_succ_cons, List.drop_zero, List.length_cons, encodeBytes, List.length_append, le32_length,
      List.drop_left' (le32_length expected), rd32_le32_append, lengthWord_toNat (fits_lt h)]
    omega

theorem xorApply (key : Byte) (input : ByteString) : Statement (.xorApply key input) := of_width fun h => by
  simp only [encodeOperands, Instr.opcode, Opcode.operands, operandsWidth, List.cons_append, List.nil_append, List.drop_succ_cons,
    List.drop_zero, List.length_cons, encodeBytes, List.length_append, le32_length, rd32_le32_append, lengthWord_toNat (fits_lt h)]
  omega

theorem chkCompute (divisor : Half) (input : ByteString) : Statement (.chkCompute divisor input) := of_width fun h => by
  simp only [encodeOperands, Instr.opcode, Opcode.operands, operandsWidth, List.drop_left' (le16_length divisor), encodeBytes,
    List.length_append, le16_length, le32_length, rd32_le32_append, lengthWord_toNat (fits_lt h)]
  omega

theorem chkVerify (divisor : Half) (expected : Byte) (input : ByteString) : Statement (.chkVerify divisor expected input) :=
  of_width fun h => by
    simp only [encodeOperands, Instr.opcode, Opcode.operands, operandsWidth, List.append_assoc,
      List.drop_left' (le16_length divisor), List.cons_append, List.nil_append, List.drop_succ_cons, List.drop_zero, encodeBytes,
      List.length_append, List.length_cons, le16_length, le32_length, rd32_le32_append, lengthWord_toNat (fits_lt h)]
    omega

theorem sbReset : Statement .sbReset := of_width fun _ => rfl

theorem sbAppend (data : ByteString) : Statement (.sbAppend data) := of_width fun h => by
  simp only [encodeOperands, Instr.opcode, Opcode.operands, width_bytes (fits_lt h), encodeBytes_length]

theorem sbRead (maxLength : Word) : Statement (.sbRead maxLength) := of_width fun _ => rfl

theorem sbRemoveChunk (offset : Word) : Statement (.sbRemoveChunk offset) := of_width fun _ => rfl

theorem sbReadPos : Statement .sbReadPos := of_width fun _ => rfl

end Sys2Proof.Laws.EncodedLength
end

