-- ==== Sys2Proof/Laws/Receiver.lean ====
section
/-! SUPPORT. Laws/Receiver.lean: what the receiver's stages and its drain loop do to the state, said once (41_frame_receiver.md
R101 to R105). -/

namespace Sys2Proof.Machine

/-- The two tests of a header, as conditions on the bytes of the buffer (R103). -/
theorem Header.signed_iff (h : Header) : h.signed = true ↔ h.signature = 0xDEADBEEF ∧ h.signature2 = 0xDEADBEEF := by
  simp only [Header.signed, sig, Bool.and_eq_true, beq_iff_eq]
  constructor
  · rintro ⟨a, b⟩; exact ⟨a, b ▸ a⟩
  · rintro ⟨a, b⟩; exact ⟨a, a.trans b.symm⟩

theorem Header.addressedTo_iff (h : Header) (station : Byte) : h.addressedTo station = true ↔
    h.receiverId = station ∨ h.decodeOpts.extractLsb' 0 2 = 1 ∨ h.decodeOpts.extractLsb' 0 2 = 2 := by
  simp only [Header.addressedTo, Bool.or_eq_true, beq_iff_eq, optsClass_broadcast_iff]

@[simp] theorem processPayload_rx (p : ByteString) (h : Header) (s : State) : (processPayload p h s).rx = s.rx := by
  rw [processPayload_frame]

/-- One iteration: the receiver and the streams may change, and nothing else; bytes of the buffer are only removed from it. -/
theorem drainStage_frame (s : State) :
    ∃ ev mq, (drainStage s).2 = { s with rx := (drainStage s).2.rx, ev := s.ev ++ ev, mq := s.mq ++ mq } ∧
      (∀ r ∈ mq, r.length = msgLen s.params) ∧ (drainStage s).2.rx.acc.length ≤ s.rx.acc.length := by
  unfold drainStage
  cases s.rx.state with
  | awaitingHeader =>
    rcases headerStage_cases s with ⟨_, h⟩ | ⟨_, r, _, h⟩ | ⟨_, hd, _, _, _, h⟩ <;> simp only [h]
    · exact ⟨[], [], by simp, by simp, le_rfl⟩
    · exact ⟨[.rxDrop r], [], by simp [State.drop, State.emit, State.setAcc], by simp, by simp⟩
    · exact ⟨[], [], by simp [State.setRx], by simp, by simp⟩
  | awaitingPayload =>
    rcases payloadStage_cases s with ⟨_, h⟩ | ⟨hd, _, _, h⟩ | ⟨hd, _, _, h⟩ <;> simp only [h]
    · exact ⟨[], [], by simp, by simp, le_rfl⟩
    · exact ⟨[], [], by simp, by simp, le_rfl⟩
    · generalize hs : s.setRx _ = s'
      generalize List.take _ _ = p
      have hf := processPayload_frame p hd s'
      obtain ⟨e, he, hm | ⟨d, hm, hd'⟩⟩ := processPayload_reports p hd s'
      · exact ⟨[e], [], by rw [hf, he, hm, ← hs]; simp [State.setRx], by simp, by simp [← hs]⟩
      · refine ⟨[e], [d], by rw [hf, he, hm, ← hs]; simp [State.setRx], ?_, by simp [← hs]⟩
        intro r hr
        rw [List.mem_singleton.1 hr, hd', ← hs]
        rfl

/-- The drain loop: the receiver and the streams may change, and nothing else; every record it adds is MSG_LEN bytes long. -/
theorem drainLoop_frame (n : Nat) (s : State) :
    ∃ ev mq, drainLoop n s = { s with rx := (drainLoop n s).rx, ev := s.ev ++ ev, mq := s.mq ++ mq } ∧
      (∀ r ∈ mq, r.length = msgLen s.params) ∧ (drainLoop n s).rx.acc.length ≤ s.rx.acc.length := by
  induction n generalizing s with
  | zero => exact ⟨[], [], by simp [drainLoop], by simp, le_rfl⟩
  | succ n ih =>
    obtain ⟨e, m, h1, h2, h3⟩ := drainStage_frame s
    rw [drainLoop.eq_def]
    simp only
    split
    · rename_i s' hs
      rw [hs] at h1 h3
      exact ⟨e, m, h1, h2, h3⟩
    · rename_i s' hs
      rw [hs] at h1 h3
      simp only at h1 h3
      obtain ⟨e', m', g1, g2, g3⟩ := ih s'
      have hp : s'.params = s.params := by rw [h1]
      refine ⟨e ++ e', m ++ m', ?_, ?_, le_trans g3 h3⟩
      · rw [g1, h1]; simp
      · intro r hr
        rcases List.mem_append.1 hr with hr | hr
        · exact h2 r hr
        · rw [← hp]; exact g2 r hr

end Sys2Proof.Machine
end

