-- ==== Sys2Proof/Tests/Slice0.lean ====
section
/-! SUPPORT. Tests/Slice0.lean: the model's own tests. Every expected value is transcribed from the worked encodings of
30_encoding.md R87 or from the vectors of 95_test_vectors.md; the witnesses at the end meet the hypotheses of the statements. -/

namespace Sys2Proof.Tests

open Sys2Proof Sys2Proof.Machine

/-! ### Well-formedness: each check refuses an ill-formed command -/

theorem ill_formed {b : ByteString} (h : b.length = 4294967296) : ByteString.fits b = false := by
  simp [ByteString.fits, h]

theorem test_well_formed_refuses : ∃ b : ByteString,
    (Instr.rxPush b).wellFormed = false ∧ (Instr.txEncode 0 0 0 b).wellFormed = false ∧
    (Instr.rleCompress 0 b).wellFormed = false ∧ (Instr.rleDecompress 0 0 b).wellFormed = false ∧
    (Instr.xorApply 0 b).wellFormed = false ∧ (Instr.chkCompute 1 b).wellFormed = false ∧
    (Instr.chkVerify 1 0 b).wellFormed = false ∧ (Instr.sbAppend b).wellFormed = false := by
  obtain ⟨b, h⟩ : ∃ b : ByteString, b.length = 4294967296 := ⟨List.replicate 4294967296 0, List.length_replicate⟩
  have f := ill_formed h
  exact ⟨b, f, f, f, f, f, f, f, f⟩

theorem test_well_formed_accepts :
    [Instr.cfgWrite 0 0, .cfgRead 0, .reset, .rxPush [1], .rxClose, .txEncode 1 2 3 [], .rleCompress 1 [2], .rleDecompress 1 2 [3],
      .xorApply 1 [], .chkCompute 0 [], .chkVerify 0 0 [], .sbReset, .sbAppend [9], .sbRead 0, .sbRemoveChunk 0,
      .sbReadPos].all Instr.wellFormed = true := by decide

/-! ### Decoding: one word of every command, written out from its encoding in 95_test_vectors.md and 30_encoding.md R79, R87 -/

theorem test_decode_cfgWrite : decode .p0 [0x01, 0x06, 0x78, 0x56, 0x34, 0x12] = .ok (.cfgWrite 0x06 0x12345678) := by decide
theorem test_decode_cfgRead : decode .p0 [0x02, 0x11] = .ok (.cfgRead 0x11) := by decide
theorem test_decode_reset : decode .p0 [0x0F] = .ok .reset := by decide
theorem test_decode_rxPush : decode .p0 [0x10, 0x02, 0x00, 0x00, 0x00, 0xEF, 0xBE] = .ok (.rxPush [0xEF, 0xBE]) := by decide
theorem test_decode_rxClose : decode .p0 [0x11] = .ok .rxClose := by decide
theorem test_decode_txEncode : decode .p0 [0x20, 0x03, 0x14, 0x01, 0x05, 0x00, 0x00, 0x00, 0x48, 0x45, 0x4C, 0x4C, 0x4F] =
    .ok (.txEncode 0x03 0x14 0x01 [0x48, 0x45, 0x4C, 0x4C, 0x4F]) := by decide
theorem test_decode_rleCompress : decode .p0 [0x30, 0x1B, 0x06, 0x00, 0x00, 0x00, 0x41, 0x41, 0x41, 0x41, 0x41, 0x42] =
    .ok (.rleCompress 0x1B [0x41, 0x41, 0x41, 0x41, 0x41, 0x42]) := by decide
theorem test_decode_rleDecompress : decode .p0 [0x31, 0x1B, 0x04, 0x00, 0x00, 0x00, 0x03, 0x00, 0x00, 0x00, 0x1B, 0x05, 0x41] =
    .ok (.rleDecompress 0x1B 4 [0x1B, 0x05, 0x41]) := by decide
theorem test_decode_xorApply : decode .p0 [0x38, 0x5A, 0x04, 0x00, 0x00, 0x00, 0x1B, 0x05, 0x41, 0x42] =
    .ok (.xorApply 0x5A [0x1B, 0x05, 0x41, 0x42]) := by decide
theorem test_decode_chkCompute : decode .p0 [0x40, 0x00, 0x01, 0x02, 0x00, 0x00, 0x00, 0xFF, 0x02] =
    .ok (.chkCompute 256 [0xFF, 0x02]) := by decide
theorem test_decode_chkVerify : decode .p0 [0x41, 0x00, 0x01, 0xA3, 0x04, 0x00, 0x00, 0x00, 0x1B, 0x05, 0x41, 0x42] =
    .ok (.chkVerify 256 0xA3 [0x1B, 0x05, 0x41, 0x42]) := by decide
theorem test_decode_sbReset : decode .p1 [0x50] = .ok .sbReset := by decide
theorem test_decode_sbAppend : decode .p1 [0x51, 0x02, 0x00, 0x00, 0x00, 0x15, 0x16] = .ok (.sbAppend [0x15, 0x16]) := by decide
theorem test_decode_sbRead : decode .p1 [0x52, 0x08, 0x00, 0x00, 0x00] = .ok (.sbRead 8) := by decide
theorem test_decode_sbRemoveChunk : decode .p0 [0x53, 0x05, 0x00, 0x00, 0x00] = .ok (.sbRemoveChunk 5) := by decide
theorem test_decode_sbReadPos : decode .p1 [0x54] = .ok .sbReadPos := by decide

/-- Each table word, its operand bytes zero, is read as its row's command. -/
theorem test_table_words : [0x01, 0x02, 0x0F, 0x10, 0x11, 0x20, 0x30, 0x31, 0x38, 0x40, 0x41, 0x50, 0x51, 0x52, 0x53, 0x54].map
    (fun w => (decodeTableWord 8 w).map Instr.opcode) = Opcode.all.map some := by decide

/-- Every table word is run by the first step after reset: one response, on P0. -/
theorem test_table_word_runs : step (State.reset.withFetchWord 16 0x0102) =
    .next { State.reset with turn := 1, responses := [{ port := .p0, bytes := [0x00, 0x1B, 0x00, 0x00, 0x00] }] } := by rfl

/-- The assembler text of 30_encoding.md R86: a class and option expression, a pseudo-instruction, a port prefix. -/
theorem test_assemble : assemble "TX_RAW [05]" = some (.p0, [0x20, 0x00, 0x00, 0x00, 0x01, 0x00, 0x00, 0x00, 0x05]) ∧
    assemble "P1: SB_READ 3" = some (.p1, [0x52, 0x03, 0x00, 0x00, 0x00]) ∧
    assemble "CHK_VERIFY 256, 0x83, [1B 05 41 42]" =
      some (.p0, [0x41, 0x00, 0x01, 0x83, 0x04, 0x00, 0x00, 0x00, 0x1B, 0x05, 0x41, 0x42]) := by decide

/-! ### One step -/

/-- Reset, with a station id. -/
def station (n : Byte) : State := { State.reset with regs := { Regs.reset with stationId := n } }

/-- The sender of V-TX-1. -/
def sender : State := { State.reset with regs := { Regs.reset with stationId := 1, txKey := 0x51, txTime := 0x12345678 } }

/-- Reset, with the given FIFO. -/
def fifo (data : ByteString) (rd : Nat) : State := { State.reset with sb := { data := data, rd := rd } }

/-- The state after one step that serves the transaction at the port, with nothing else waiting. -/
def after (p : Port) (t : ByteString) (s : State) : Option State :=
  match step (s.issue p t) with
  | .next s' => some s'
  | .fault _ => none
  | .refused _ => none

/-- The response of one step. -/
def answer (p : Port) (t : ByteString) (s : State) : Option (List Response) := (after p t s).map State.responses

/-- A response that is expected. -/
def reply (p : Port) (bytes : ByteString) : Option (List Response) := some [{ port := p, bytes := bytes }]

/-- `F1`, the frame of V-TX-1. -/
def f1 : ByteString :=
  [0xEF, 0xBE, 0xAD, 0xDE, 0xEF, 0xBE, 0xAD, 0xDE, 0x12, 0x00, 0x00, 0x00, 0x2C, 0x00, 0x00, 0x00, 0x03, 0x01, 0x14, 0x51,
    0x52, 0x50, 0x4A, 0x54, 0x51, 0x29, 0x07, 0x65, 0x43, 0x19, 0x14, 0x1D, 0x1D, 0x1E, 0x4A, 0x4A, 0x51, 0xDD]

/-- `F3`, the frame of V-TX-3. -/
def f3 : ByteString :=
  [0xEF, 0xBE, 0xAD, 0xDE, 0xEF, 0xBE, 0xAD, 0xDE, 0x03, 0x00, 0x00, 0x00, 0x03, 0x00, 0x00, 0x00, 0x09, 0x01, 0x01, 0x00,
    0x01, 0x02, 0x03]

/-- `R-HELLO` (V-RX-1). -/
def rHello : Record :=
  [0x03, 0x01, 0x00, 0x00, 0x00, 0x00, 0x00, 0x78, 0x56, 0x34, 0x12, 0x48, 0x45, 0x4C, 0x4C, 0x4F] ++ List.replicate 27 0x00
    ++ [0x8C]

/-- V-DEC-1 to V-DEC-10. -/
theorem test_decoding_statuses :
    answer .p0 [] State.reset = reply .p0 [0x01] ∧
    answer .p0 [0x00] State.reset = reply .p0 [0x01] ∧
    answer .p0 [0xFF, 0x00, 0x00] State.reset = reply .p0 [0x01] ∧
    answer .p1 [0x02, 0x00] State.reset = reply .p1 [0x01] ∧
    answer .p1 [0x02] State.reset = reply .p1 [0x01] ∧
    answer .p0 [0x0F, 0x00] State.reset = reply .p0 [0x02] ∧
    answer .p0 [0x10, 0x05, 0x00, 0x00, 0x00, 0x01] State.reset = reply .p0 [0x02] ∧
    answer .p0 [0x52, 0x08, 0x00, 0x00] State.reset = reply .p0 [0x02] ∧
    answer .p0 [0x10, 0x00, 0x00, 0x00, 0x00] State.reset = reply .p0 [0x00] ∧
    answer .p1 [0x54] State.reset = reply .p1 [0x00, 0x00, 0x00, 0x00, 0x00] := by decide

/-- V-CFG-4 and V-CFG-6: a value out of range, one more than the largest legal one. -/
theorem test_cfgWrite_refuses :
    answer .p0 [0x01, 0x02, 0x01, 0x01, 0x00, 0x00] State.reset = reply .p0 [0x03] ∧
    answer .p0 [0x01, 0x00, 0x00, 0x01, 0x00, 0x00] State.reset = reply .p0 [0x03] := by decide

/-- V-CFG-10: TX_SEQ takes every value. -/
theorem test_cfgWrite_txSeq :
    (after .p0 [0x01, 0x05, 0xFF, 0xFF, 0xFF, 0xFF] State.reset).map (fun s => s.regs.txSeq) = some 0xFFFFFFFF := by decide

/-- V-CFG-2: a 9-bit register, zero-extended. -/
theorem test_cfgRead_chkDiv : answer .p0 [0x02, 0x02] State.reset = reply .p0 [0x00, 0x00, 0x01, 0x00, 0x00] := by decide

/-- V-CFG-8: a reserved index. -/
theorem test_cfgRead_reserved : answer .p0 [0x02, 0x07] State.reset = reply .p0 [0x03] := by decide

/-- V-CFG-11: RESET clears the registers and the FIFO. -/
theorem test_reset_clears :
    (after .p0 [0x0F] { fifo [0x01, 0x02] 1 with regs := { Regs.reset with stationId := 3 } }).map (fun s => (s.regs, s.sb)) =
      some (Regs.reset, Sb.reset) := by decide

set_option maxRecDepth 10000 in
/-- V-RX-1: the frame of V-TX-1 is received by station 3. -/
theorem test_rxPush_receives :
    (after .p0 ([0x10, 0x26, 0x00, 0x00, 0x00] ++ f1) (station 3)).map (fun s => (s.mq, s.ev, s.rx)) =
      some ([rHello], [.queueSizeChanged 1], Rx.reset) := by decide

set_option maxRecDepth 10000 in
/-- V-RX-4, case b: a flipped signature byte discards the valid frame behind it. -/
theorem test_rxPush_discards :
    (after .p0 ([0x10, 0x4C, 0x00, 0x00, 0x00, 0xEE] ++ f1.drop 1 ++ f1) (station 3)).map (fun s => (s.mq, s.ev, s.rx)) =
      some ([], [.rxDrop .invalidSignature], Rx.reset) := by decide

/-- V-RX-14, last step: a stuck payload is cleared and nothing is emitted. -/
theorem test_rxClose_clears :
    (after .p0 [0x11] { State.reset with rx := {
      state := .awaitingPayload, acc := List.replicate 7 0x09, hdr := some (parseHeader (f3.take 20)) } }).map (fun s => (s.rx, s.ev)) =
      some (Rx.reset, []) := by decide

set_option maxRecDepth 10000 in
/-- V-TX-1: "HELLO" as TEXT with RLE and XOR. -/
theorem test_txEncode_hello :
    (after .p0 [0x20, 0x03, 0x14, 0x01, 0x05, 0x00, 0x00, 0x00, 0x48, 0x45, 0x4C, 0x4C, 0x4F] sender).map
      (fun s => (s.tx, s.regs.txSeq)) = some (f1, 1) := by decide

/-- V-TX-6: the refusals, `useHeader` first. -/
theorem test_txEncode_refuses :
    [[0x20, 0x03, 0x08, 0x01], [0x20, 0x03, 0x0C, 0x01], [0x20, 0x03, 0x03, 0x01], [0x20, 0x03, 0x20, 0x01], [0x20, 0x03, 0x00, 0x02],
      [0x20, 0x03, 0x08, 0x02]].map (fun t => answer .p0 (t ++ [0x01, 0x00, 0x00, 0x00, 0x41]) State.reset) =
      [reply .p0 [0x04], reply .p0 [0x04], reply .p0 [0x04], reply .p0 [0x04], reply .p0 [0x03], reply .p0 [0x03]] := by decide

/-- V-RLE-3, V-RLE-4, V-RLE-7, V-RLE-12 and V-RLE-13. -/
theorem test_rleCompress_outputs :
    rleCompress [0x41, 0x41, 0x41] 0x1B = [0x41, 0x41, 0x41] ∧
    rleCompress [0x41, 0x41, 0x41, 0x41] 0x1B = [0x1B, 0x04, 0x41] ∧
    rleCompress [0x1B, 0x1B] 0x1B = [0x1B, 0x02, 0x1B] ∧
    rleCompress [0x41, 0x41, 0x42, 0x42, 0x42, 0x42, 0x1B, 0x00] 0x1B = [0x41, 0x41, 0x1B, 0x04, 0x42, 0x1B, 0x01, 0x1B, 0x00] ∧
    rleCompress [0x00, 0x00, 0x01, 0x00] 0x00 = [0x00, 0x02, 0x00, 0x01, 0x00, 0x01, 0x00] := by decide

set_option maxRecDepth 10000 in
/-- V-RLE-10 and V-RLE-11: a run longer than the largest count is split. -/
theorem test_rleCompress_splits :
    rleCompress (List.replicate 256 0x1B) 0x1B = [0x1B, 0xFF, 0x1B, 0x1B, 0x01, 0x1B] ∧
    rleCompress (List.replicate 259 0x41) 0x1B = [0x1B, 0xFF, 0x41, 0x1B, 0x04, 0x41] := by decide

/-- V-RLD-1, V-RLD-11 and V-RLD-12. -/
theorem test_rleDecompress_outputs :
    (match rleDecompress [0x1B, 0x05, 0x41] 0x1B 5 with | .ok out => out | .error _ => []) = List.replicate 5 0x41 ∧
    (match rleDecompress [0x1B, 0x02, 0x41, 0x41, 0x41, 0x41] 0x1B 5 with | .ok out => out | .error _ => []) =
      List.replicate 5 0x41 ∧
    (match rleDecompress [0x1B, 0x1B, 0x00] 0x1B 27 with | .ok out => out | .error _ => []) = List.replicate 27 0x00 := by decide

/-- V-RLD-2 to V-RLD-8: the first error in scan order. -/
theorem test_rleDecompress_errors :
    [([0x1B, 0x05], 5), ([0x1B], 1), ([0x1B, 0x00, 0x41], 0), ([0x1B, 0x05, 0x41], 4), ([0x41], 2), ([0x41, 0x42, 0x1B], 1),
      ([0x1B, 0x00, 0x41, 0x1B], 0)].map
      (fun (c : ByteString × Nat) => match rleDecompress c.1 0x1B c.2 with | .ok _ => none | .error st => some st.code) =
      [some 0x06, some 0x06, some 0x07, some 0x08, some 0x09, some 0x08, some 0x07] := by decide

/-- V-XOR-1. -/
theorem test_xorApply : answer .p0 [0x38, 0x51, 0x05, 0x00, 0x00, 0x00, 0x48, 0x45, 0x4C, 0x4C, 0x4F] State.reset =
    reply .p0 [0x00, 0x05, 0x00, 0x00, 0x00, 0x19, 0x14, 0x1D, 0x1D, 0x1E] := by decide

/-- V-CHK-2, V-CHK-4 and V-CHK-6. -/
theorem test_chkCompute :
    answer .p0 [0x40, 0xFF, 0x00, 0x02, 0x00, 0x00, 0x00, 0xFF, 0x02] State.reset = reply .p0 [0x00, 0x02] ∧
    answer .p0 [0x40, 0x01, 0x00, 0x02, 0x00, 0x00, 0x00, 0xFF, 0x02] State.reset = reply .p0 [0x00, 0x00] ∧
    answer .p0 [0x40, 0x00, 0x01, 0x03, 0x00, 0x00, 0x00, 0x80, 0x80, 0x80] State.reset = reply .p0 [0x00, 0x80] := by decide

/-- V-CHK-7 and V-CHK-8: the divisors next to the legal ones. -/
theorem test_chkCompute_refuses :
    answer .p0 [0x40, 0x00, 0x00, 0x01, 0x00, 0x00, 0x00, 0x01] State.reset = reply .p0 [0x03] ∧
    answer .p0 [0x40, 0x01, 0x01, 0x01, 0x00, 0x00, 0x00, 0x01] State.reset = reply .p0 [0x03] := by decide

/-- PRG-4, steps 5 and 6, and V-CHK-9. -/
theorem test_chkVerify :
    answer .p0 [0x41, 0x00, 0x01, 0xA3, 0x04, 0x00, 0x00, 0x00, 0x1B, 0x05, 0x41, 0x42] State.reset = reply .p0 [0x00, 0x01] ∧
    answer .p0 [0x41, 0x00, 0x01, 0x83, 0x04, 0x00, 0x00, 0x00, 0x1B, 0x05, 0x41, 0x42] State.reset = reply .p0 [0x00, 0x00] ∧
    answer .p0 [0x41, 0x07, 0x00, 0x07, 0x01, 0x00, 0x00, 0x00, 0x07] State.reset = reply .p0 [0x00, 0x00] := by decide

/-- V-SB-13, last step. -/
theorem test_sbReset : (after .p1 [0x50] (fifo [0x01, 0x02] 1)).map State.sb = some Sb.reset := by decide

/-- V-SB-11, second and third steps, with SB_CAP = 4. -/
theorem test_sbAppend_full :
    (after .p0 [0x51, 0x02, 0x00, 0x00, 0x00, 0x04, 0x05]
      { fifo [0x01, 0x02, 0x03] 0 with params := { Params.default with sbCap := some 4 } }).map (fun s => (s.sb.data, s.responses)) =
      some ([0x01, 0x02, 0x03], [{ port := .p0, bytes := [0x0A] }]) ∧
    (after .p0 [0x51, 0x01, 0x00, 0x00, 0x00, 0x04]
      { fifo [0x01, 0x02, 0x03] 0 with params := { Params.default with sbCap := some 4 } }).map (fun s => s.sb.data) =
      some [0x01, 0x02, 0x03, 0x04] := by decide

/-- V-SB-3, last step: fewer bytes than asked for. -/
theorem test_sbRead :
    answer .p1 [0x52, 0x08, 0x00, 0x00, 0x00] (fifo [0x01, 0x02, 0x03] 1) = reply .p1 [0x00, 0x02, 0x00, 0x00, 0x00, 0x02, 0x03] ∧
    (after .p1 [0x52, 0x08, 0x00, 0x00, 0x00] (fifo [0x01, 0x02, 0x03] 1)).map (fun s => s.sb.rd) = some 3 := by decide

/-- V-SB-6 and V-SB-7, third steps: the cursor shifts with the data, or becomes 0. -/
theorem test_sbRemoveChunk :
    (after .p0 [0x53, 0x02, 0x00, 0x00, 0x00] (fifo [0x01, 0x02, 0x03, 0x04, 0x05] 3)).map State.sb =
      some { data := [0x03, 0x04, 0x05], rd := 1 } ∧
    (after .p0 [0x53, 0x03, 0x00, 0x00, 0x00] (fifo [0x01, 0x02, 0x03, 0x04, 0x05] 1)).map State.sb =
      some { data := [0x04, 0x05], rd := 0 } := by decide

/-- V-SB-9, second step. -/
theorem test_sbRemoveChunk_refuses :
    answer .p0 [0x53, 0x04, 0x00, 0x00, 0x00] (fifo [0x01, 0x02, 0x03] 0) = reply .p0 [0x0B] := by decide

/-- PRG-2, step 4. -/
theorem test_sbReadPos : answer .p1 [0x54] (fifo [0x10, 0x11, 0x12, 0x13, 0x14] 3) = reply .p1 [0x00, 0x03, 0x00, 0x00, 0x00] := by
  decide

/-! ### Witnesses: a state and operands that meet the hypotheses of each statement, and of each clause at its boundary values -/

/-- Reset with a transaction at each port and a request for a message. -/
def crowded : State := { State.reset with p0 := [[0x0F]], p1 := [[0x54]], mqReads := 1, mq := [rHello] }

/-- Station 3 holding the header of `f1`, with one payload byte received. -/
def holding : State :=
  { station 3 with rx := { state := .awaitingPayload, acc := [0x52], hdr := some (parseHeader f1) } }

/-- The frame `f1`, and the same with a flipped signature byte (V-RX-4). -/
def frame1 : Frame := { header := parseHeader f1, payload := f1.drop 20 }

def frame1Flipped : Frame := { frame1 with header := { parseHeader f1 with signature := 0xDEADBEEE } }

/-- The frame `f3`. -/
def frame3 : Frame := { header := parseHeader f3, payload := f3.drop 20 }

theorem frame1_bytes : frame1.bytes = f1 := by decide

theorem test_witness_SpecExampleEncodings : ∃ s : State, s.sb.rd = 5 := ⟨fifo (List.replicate 5 0) 5, rfl⟩

/-- Both ports, the shortest command and one whose byte string is empty. -/
theorem test_witness_DecodeOfEncodeIsIdentity :
    (Instr.wellFormed .sbReadPos = true ∧ Opcode.acceptedOn .sbReadPos .p1 = true) ∧
    (Instr.wellFormed (.rxPush []) = true ∧ Opcode.acceptedOn .rxPush .p0 = true) := by decide

theorem test_witness_DecodedCommandHasThatEncoding : ∃ p t i, decode p t = .ok i :=
  ⟨.p1, [0x52, 0x08, 0x00, 0x00, 0x00], .sbRead 8, by decide⟩

/-- No opcode (no byte, and a byte that is none); the port that does not accept it; one byte too few and one too many; the length
that matches, with the shortest and with a nonempty byte string. -/
theorem test_witness_TransactionChecksRunInOrder :
    (∀ (op : Opcode) (rest : ByteString), ([] : ByteString) ≠ op.code :: rest) ∧
    (∀ (op : Opcode) (rest : ByteString), ([0x00] : ByteString) ≠ op.code :: rest) ∧
    Opcode.acceptedOn .cfgRead .p1 = false ∧
    (Opcode.acceptedOn .sbRead .p0 = true ∧
      [Opcode.code .sbRead, 0x08, 0x00, 0x00].length ≠ 1 + operandsWidth (Opcode.operands .sbRead) [0x08, 0x00, 0x00]) ∧
    (Opcode.acceptedOn .reset .p0 = true ∧
      [Opcode.code .reset, 0x00].length ≠ 1 + operandsWidth (Opcode.operands .reset) [0x00]) ∧
    (Opcode.acceptedOn .sbReset .p1 = true ∧ [Opcode.code .sbReset].length = 1 + operandsWidth (Opcode.operands .sbReset) []) ∧
    (Opcode.acceptedOn .rxPush .p0 = true ∧ [Opcode.code .rxPush, 0x01, 0x00, 0x00, 0x00, 0xEF].length =
      1 + operandsWidth (Opcode.operands .rxPush) [0x01, 0x00, 0x00, 0x00, 0xEF]) := by
  refine ⟨fun op rest h => (List.cons_ne_nil _ _) h.symm, fun op rest h => ?_, by decide, by decide, by decide, by decide, by decide⟩
  have h := (List.cons.inj h).1
  cases op <;> exact absurd h (by decide)

/-- The boundaries of the illegal ranges. -/
theorem test_witness_IllegalOpcodeChangesNothing :
    [0x00, 0x03, 0x0E, 0x12, 0x1F, 0x21, 0x2F, 0x32, 0x37, 0x39, 0x3F, 0x42, 0x4F, 0x55, 0xFF].all
      (fun b => Opcode.ofByte b == none) = true := by decide

/-- A transaction that decodes, and one that does not. -/
theorem test_witness_StepRunsDecodedCommand :
    (((station 3).issue .p0 [0x0F]).granted = some (.port .p0) ∧ ((station 3).issue .p0 [0x0F]).pending .p0 = [0x0F] :: [] ∧
      decode .p0 [0x0F] = .ok .reset) ∧
    (((station 3).issue .p1 [0x02]).granted = some (.port .p1) ∧ ((station 3).issue .p1 [0x02]).pending .p1 = [0x02] :: [] ∧
      decode .p1 [0x02] = .error .illegalOpcode) := by decide

/-- Each agent alone; nobody; several at once, where someone is granted; and each port at a turn reserved for it. -/
theorem test_witness_ArbiterServesAWaitingAgent :
    (State.reset.issue .p0 []).granted = some (.port .p0) ∧ (State.reset.issue .p1 []).granted = some (.port .p1) ∧
    State.reset.requestMessage.granted = some .queueReader ∧ State.reset.granted = none ∧ crowded.granted ≠ none ∧
    ∀ p : Port, ∃ m, reservedFor { crowded with turn := m }.turn = some p ∧ { crowded with turn := m }.pending p ≠ [] := by
  refine ⟨by decide, by decide, by decide, by decide, ?_, fun p => ?_⟩
  · rw [Ne, State.granted_eq_none_iff]
    decide
  · obtain ⟨m, -, hm⟩ := exists_reservedFor 0 p
    exact ⟨m, hm, by cases p <;> exact List.cons_ne_nil _ _⟩

/-- A run in which two transactions are presented at P1 at its start, and nothing after. -/
def twoAtP1 : Nat → State
  | 0 => { State.reset with p1 := [[0x54], [0x50]] }
  | 1 => { State.reset with
      p1 := [[0x50]], port := .p1, turn := 1, responses := [{ port := .p1, bytes := [0x00, 0x00, 0x00, 0x00, 0x00] }] }
  | _ + 2 => { State.reset with
      port := .p1
      turn := 2
      responses := [{ port := .p1, bytes := [0x00, 0x00, 0x00, 0x00, 0x00] }, { port := .p1, bytes := [0x00] }] }

/-- The run is one, and a transaction stands behind another at its start. -/
theorem test_witness_EveryWaitingTransactionIsPerformed :
    IsRun twoAtP1 ∧ (twoAtP1 0).pending .p1 = [[0x54]] ++ [0x50] :: [] := by
  have idle : ∀ u : State, AgentsAct u u := fun u => ⟨[], [], 0, by simp⟩
  refine ⟨fun n => ?_, rfl⟩
  match n with
  | 0 => exact ⟨_, by rfl, idle _⟩
  | 1 => exact ⟨_, by rfl, idle _⟩
  | _ + 2 => exact ⟨_, by rfl, idle _⟩

theorem test_witness_FailedCommandChangesNothing : ∃ (i : Instr) (s t : State) (c : Byte) (rest : ByteString),
    exec i s = .next t ∧ t.responses = s.answered (c :: rest) ∧ c ≠ 0x00 :=
  ⟨.cfgRead 0x07, State.reset, _, 0x03, [], rfl, by decide, by decide⟩

/-- For every clause, a command that it speaks of. -/
theorem test_witness_StateChangesOnlyByItsCommands : ∃ t u : State,
    exec (.sbAppend [1]) State.reset = .next t ∧ t.rx = State.reset.rx ∧ t.regs = State.reset.regs ∧ t.tx = State.reset.tx ∧
    exec (.txEncode 0 0 0 [1]) State.reset = .next u ∧ u.sb = State.reset.sb ∧ u.ev = State.reset.ev :=
  ⟨_, _, rfl, rfl, rfl, rfl, rfl, rfl, rfl⟩

theorem test_witness_CfgReadSbReadPosAndCodecsHaveNoEffect : (Instr.cfgRead 0).opcode = .cfgRead ∧ Instr.sbReadPos.opcode = .sbReadPos ∧
    (Instr.rleCompress 0 []).opcode = .rleCompress ∧ (Instr.rleDecompress 0 0 []).opcode = .rleDecompress ∧
    (Instr.xorApply 0 []).opcode = .xorApply ∧ (Instr.chkCompute 1 []).opcode = .chkCompute ∧
    (Instr.chkVerify 1 0 []).opcode = .chkVerify := by decide

theorem test_witness_StepOnlyAppendsToStreams : ∃ t, step (sender.issue .p0 [0x20, 0, 0, 0, 1, 0, 0, 0, 5]) = .next t ∧ t.tx = [5] :=
  ⟨_, rfl, rfl⟩

theorem test_witness_PortOneReachesOnlyTheFifo :
    ∃ t, servePort .p1 (sender.issue .p1 [0x51, 1, 0, 0, 0, 5]) = .next t ∧ t.sb.data = [5] := ⟨_, rfl, rfl⟩

theorem test_witness_QueueGrowsAtTailShrinksAtHead :
    ({ State.reset with mq := [rHello] } : State).requestMessage.granted = some .queueReader ∧
    ∃ t, (State.reset.issue .p0 [0x0F]).granted ≠ some .queueReader ∧ step (State.reset.issue .p0 [0x0F]) = .next t :=
  ⟨by decide, _, by decide, rfl⟩

/-- A state in the middle of a frame meets the receiver's invariants, and steps. -/
theorem test_witness_StepKeepsReceiverDrained : ReceiverConsistent (holding.issue .p0 [0x11]) ∧
    ReceiverDrained (holding.issue .p0 [0x11]) ∧ ∃ t, step (holding.issue .p0 [0x11]) = .next t := by
  refine ⟨by unfold ReceiverConsistent; decide, ⟨by decide, ?_⟩, _, rfl⟩
  intro h _ hh
  cases hh
  decide

/-- The FIFO full to a finite capacity, its cursor at the end. -/
theorem test_witness_StepKeepsFifoOrdered : ∃ s t : State, s.params.sbCap = some 2 ∧ s.sb.rd = 2 ∧ FifoOrdered s ∧ step s = .next t := by
  refine ⟨{ fifo [1, 2] 2 with params := { Params.default with sbCap := some 2 }, p1 := [[0x50]] }, _, rfl, rfl, ?_, rfl⟩
  refine ⟨by decide, fun c hc => ?_⟩
  cases hc
  decide

/-- The buffer full to a finite capacity, a signed header held. -/
theorem test_witness_StepKeepsAccumulationWithinCap :
    ∃ s t : State, s.params.accCap = some 1 ∧ AccumulationWithinCap s ∧ HeldHeaderSigned s ∧ step s = .next t := by
  refine ⟨{ holding with params := { Params.default with accCap := some 1 }, p0 := [[0x11]] }, _, rfl, ?_, ?_, rfl⟩
  · intro c hc; cases hc; decide
  · intro h hh; cases hh; decide

theorem test_witness_StepKeepsRegistersLegalAndRecordsSized :
    ∃ s t : State, s.mq = [rHello] ∧ RegistersLegal s ∧ QueueHoldsRecords s ∧ step s = .next t := by
  refine ⟨{ State.reset with mq := [rHello], p0 := [[0x0F]] }, _, rfl, by unfold RegistersLegal; decide, ?_, rfl⟩
  intro r hr
  rw [List.mem_singleton.1 hr]
  decide

/-- Both sides of every bound of a legal value, and the indices next to the writable ones. -/
theorem test_witness_CfgWriteStoresLegalValues :
    (255 : Word).toNat ≤ 255 ∧ ¬ (256 : Word).toNat ≤ 255 ∧ (1 ≤ (1 : Word).toNat ∧ (1 : Word).toNat ≤ 256) ∧
    (1 ≤ (256 : Word).toNat ∧ (256 : Word).toNat ≤ 256) ∧ ¬ (1 ≤ (0 : Word).toNat ∧ (0 : Word).toNat ≤ 256) ∧
    ¬ (1 ≤ (257 : Word).toNat ∧ (257 : Word).toNat ≤ 256) ∧ (0x06 : Byte) < 0x07 ∧ (0x06 : Byte) < 0xFF := by decide

/-- Between frames, inside one, and the reserved indices next to the registers. -/
theorem test_witness_CfgReadReturnsTheRegister : State.reset.rx.state = .awaitingHeader ∧
    (holding.rx.state = .awaitingPayload ∧ holding.rx.hdr = some (parseHeader f1)) ∧
    ([0x07, 0x0F, 0x13, 0x1F, 0x22, 0xFF] : List Byte).all
      (fun r => (decide (0x06 < r) && decide (r < 0x10)) || (decide (0x12 < r) && decide (r < 0x20)) || decide (0x21 < r)) = true := by
  decide

/-- A register of each width, at its largest legal value. -/
theorem test_witness_WrittenRegisterReadsBack :
    (∃ t, exec (.cfgWrite 0x00 255) State.reset = .next t ∧ t.responses = State.reset.answered [0x00]) ∧
    (∃ t, exec (.cfgWrite 0x02 256) State.reset = .next t ∧ t.responses = State.reset.answered [0x00]) ∧
    (∃ t, exec (.cfgWrite 0x05 0xFFFFFFFF) State.reset = .next t ∧ t.responses = State.reset.answered [0x00]) :=
  ⟨⟨_, rfl, rfl⟩, ⟨_, rfl, rfl⟩, ⟨_, rfl, rfl⟩⟩

/-- One byte more than the capacity. -/
theorem test_witness_OverflowingPushDiscards : ∃ (s : State) (data : ByteString) (c : Nat),
    s.params.accCap = some c ∧ s.rx.acc.length + data.length = c + 1 ∧ c < s.rx.acc.length + data.length :=
  ⟨{ State.reset with params := { Params.default with accCap := some 2 } }, [1, 2, 3], 2, rfl, by decide, by decide⟩

/-- One byte short of a header, and one byte short of the payload. -/
theorem test_witness_IncompleteUnitWaits :
    (admits State.reset.params.accCap (State.reset.rx.acc.length + (f1.take 19).length) = true ∧
      State.reset.rx.state = .awaitingHeader ∧ State.reset.rx.acc.length + (f1.take 19).length < 20) ∧
    (admits holding.params.accCap (holding.rx.acc.length + ((f1.drop 21).take 16).length) = true ∧
      holding.rx.state = .awaitingPayload ∧ holding.rx.hdr = some (parseHeader f1) ∧
      holding.rx.acc.length + ((f1.drop 21).take 16).length < (parseHeader f1).dataLength.toNat) := by decide

/-- Exactly a header, its signature flipped; and a signed TEXT header at another station (V-RX-3). -/
theorem test_witness_RejectedHeaderDiscardsTheBuffer :
    ((station 3).rx.state = .awaitingHeader ∧ (station 3).rx.hdr = none ∧ admits (station 3).params.accCap 20 = true ∧
      20 ≤ (0xEE :: (f1.drop 1).take 19 : ByteString).length ∧
      ¬ (rd32 (0xEE :: (f1.drop 1).take 19) 0 = 0xDEADBEEF ∧ rd32 (0xEE :: (f1.drop 1).take 19) 4 = 0xDEADBEEF)) ∧
    ((station 4).rx.state = .awaitingHeader ∧ 20 ≤ f1.length ∧ rd32 f1 0 = 0xDEADBEEF ∧ rd32 f1 4 = 0xDEADBEEF ∧
      byteAt f1 16 ≠ (station 4).regs.stationId ∧ (byteAt f1 18).extractLsb' 0 2 ≠ 1 ∧ (byteAt f1 18).extractLsb' 0 2 ≠ 2) := by
  decide

/-- A header with no payload byte behind it, and one with all but the last. -/
theorem test_witness_AcceptedHeaderIsHeld : ∀ surplus : ByteString, surplus = [] ∨ surplus = (f1.drop 20).take 17 →
    (station 3).rx.state = .awaitingHeader ∧ (station 3).rx.acc ++ (f1.take 20 ++ surplus) = (parseHeader f1).bytes ++ surplus ∧
    (Frame.mk (parseHeader f1) surplus).accepted (station 3).regs.stationId ∧ surplus.length < (parseHeader f1).dataLength.toNat := by
  rintro surplus (rfl | rfl) <;> refine ⟨by decide, by decide, ⟨by decide, by decide, .inl (by decide)⟩, by decide⟩

/-- A frame with a payload, and one with none. -/
theorem test_witness_CompleteFrameIsReportedOnce : (station 3).receiverIdle ∧ frame1.complete ∧
    (Frame.mk { parseHeader f3 with dataLength := 0 } []).complete ∧ admits (station 3).params.accCap (20 + 18) = true := by
  refine ⟨rfl, by unfold Frame.complete; decide, by unfold Frame.complete; decide, by decide⟩

/-- With `ACC_CAP = ∞` no push overflows: RX_PUSH keeps the parameters. -/
theorem unbounded_noOverflow (chunks : List ByteString) (s : State) (h : s.params.accCap = none) : NoOverflow chunks s := by
  induction chunks generalizing s with
  | nil => trivial
  | cons c cs ih =>
    have hc : ∀ n, admits s.params.accCap n = true := fun n => by rw [h]; rfl
    refine ⟨hc _, fun t ht => ih t ?_⟩
    simp only [exec, execRxPush, hc, if_true] at ht
    cases ht
    obtain ⟨ev, mq, hd, _⟩ := drainLoop_frame (drainBound (s.setAcc (s.rx.acc ++ c)).rx.acc.length) (s.setAcc (s.rx.acc ++ c))
    rw [State.ret_params, drain, hd]
    exact h

/-- Two frames, cut inside the first header and inside the second payload. -/
theorem test_witness_DispatchIsIndependentOfChunking : (station 3).receiverIdle ∧
    (∀ f ∈ [frame1, frame3], f.complete ∧ f.accepted (station 3).regs.stationId) ∧
    [(f1 ++ f3).take 19, ((f1 ++ f3).drop 19).take 40, (f1 ++ f3).drop 59].flatten = [frame1, frame3].flatMap Frame.bytes ∧
    NoOverflow [(f1 ++ f3).take 19, ((f1 ++ f3).drop 19).take 40, (f1 ++ f3).drop 59] (station 3) := by
  refine ⟨rfl, ?_, by decide, unbounded_noOverflow _ _ rfl⟩
  intro f hf
  rcases List.mem_cons.1 hf with rfl | hf
  · exact ⟨by unfold Frame.complete; decide, by decide, by decide, .inl (by decide)⟩
  · rw [List.mem_singleton.1 hf]
    exact ⟨by unfold Frame.complete; decide, by decide, by decide, .inr (.inl (by decide))⟩

/-- V-RX-4, case a. -/
theorem test_witness_FrameAfterDiscardIsReceived : (station 3).receiverIdle ∧ frame1Flipped.complete ∧
    ¬ frame1Flipped.accepted (station 3).regs.stationId ∧ frame1.complete ∧ frame1.accepted (station 3).regs.stationId ∧
    ∃ t, exec (.rxPush frame1Flipped.bytes) (station 3) = .next t := by
  refine ⟨rfl, by unfold Frame.complete; decide, ?_, by unfold Frame.complete; decide, ⟨by decide, by decide, .inl (by decide)⟩, _, rfl⟩
  intro h
  exact absurd h.1 (by decide)

/-- The payload completed by the push, with nothing behind it and with another frame behind it. -/
theorem test_witness_HeldFrameDecodesWithCurrentRegisters : holding.rx.state = .awaitingPayload ∧
    holding.rx.hdr = some (parseHeader f1) ∧ (parseHeader f1).signature = 0xDEADBEEF ∧ (parseHeader f1).signature2 = 0xDEADBEEF ∧
    (∀ n, admits holding.params.accCap n = true) ∧ (f1.drop 20).length = (parseHeader f1).dataLength.toNat ∧
    ∀ surplus ∈ [[], f3], holding.rx.acc ++ (f1.drop 21 ++ surplus) = f1.drop 20 ++ surplus :=
  ⟨by decide, by decide, by decide, by decide, fun _ => rfl, by decide, by decide⟩

theorem test_witness_EventsAsBytes : 0 < 4294967296 ∧ 4294967295 < 4294967296 := by decide

theorem test_witness_RawWriteAppendsThePayload : (2 : Byte) ≠ 0 ∧ (2 : Byte) ≠ 1 := by decide

/-- A frame that is emitted, options of each refused kind, and a frame too long for its count. -/
theorem test_witness_FramedEncodeFollowsThePipeline :
    ((0x14 : Byte).extractLsb' 0 2 = 0 ∧ (0x14 : Byte).extractLsb' 2 2 = 1 ∧ (0x14 : Byte).extractLsb' 4 1 = 1 ∧
      (0x14 : Byte).extractLsb' 5 3 = 0) ∧
    ((0x03 : Byte).extractLsb' 0 2 = 3 ∧ (0x08 : Byte).extractLsb' 2 2 = 2 ∧ (0x0C : Byte).extractLsb' 2 2 = 3 ∧
      (0x20 : Byte).extractLsb' 5 3 ≠ 0) ∧
    ∀ r : Regs, 4294967295 < 20 + (buildMessage { Params.default with textCap := 4294967264 } r 0 []).length := by
  refine ⟨by decide, by decide, fun r => ?_⟩
  rw [buildMessage_length, msgLen]
  decide

/-- The first and the last byte of the text field, inside the payload and past it. -/
theorem test_witness_MessageRecordLayout : ∃ (params : Params) (payload : ByteString),
    0 < params.textCap ∧ 31 < params.textCap ∧ 0 < payload.length ∧ ¬ 31 < payload.length := ⟨Params.default, [0x48], by decide⟩

set_option maxRecDepth 10000 in
/-- V-TX-1: a framed TX_ENCODE that emits `f1`. -/
theorem test_witness_EmittedHeaderRelations : ∃ t : State,
    exec (.txEncode 3 0x14 1 [0x48, 0x45, 0x4C, 0x4C, 0x4F]) sender = .next t ∧ t.tx = sender.tx ++ f1 ∧ f1 ≠ [] ∧
    12 + sender.params.textCap < 4294967296 := ⟨_, rfl, by decide, by decide, by decide⟩

set_option maxRecDepth 10000 in
/-- A TEXT frame, for which TX_SEQ moves, and a raw write, for which it does not. -/
theorem test_witness_TxSeqCountsTextFrames :
    (∃ t, exec (.txEncode 3 0x14 1 [0x48]) sender = .next t ∧ t.tx ≠ sender.tx) ∧
    (∃ t, exec (.txEncode 3 0x00 0 [0x48]) sender = .next t) := ⟨⟨_, rfl, by decide⟩, ⟨_, rfl⟩⟩

set_option maxRecDepth 10000 in
/-- V-TX-1 pushed at station 3 in two pieces. -/
theorem test_witness_EncodedFrameIsDispatchedByThePeer : ∃ a' : State,
    exec (.txEncode 3 0x14 1 [0x48, 0x45, 0x4C, 0x4C, 0x4F]) sender = .next a' ∧ a'.tx = sender.tx ++ f1 ∧ f1 ≠ [] ∧
    (station 3).receiverIdle ∧ (station 3).regs.rleEsc = sender.regs.rleEsc ∧ (station 3).regs.chkDiv = sender.regs.chkDiv ∧
    (station 3).params.textCap = sender.params.textCap ∧ (station 3).regs.stationId = 3 ∧ [f1.take 19, f1.drop 19].flatten = f1 ∧
    NoOverflow [f1.take 19, f1.drop 19] (station 3) ∧ admits (station 3).params.maxDecode (12 + sender.params.textCap) = true :=
  ⟨_, rfl, by decide, by decide, rfl, rfl, rfl, rfl, rfl, by decide, unbounded_noOverflow _ _ rfl, by decide⟩

/-- The escape byte and another in turn, `k` times. -/
def alternating : Nat → ByteString
  | 0 => []
  | k + 1 => 0x1B :: 0x00 :: alternating k

theorem alternating_length (k : Nat) : (alternating k).length = 2 * k ∧ (rleScan 0x1B 0x00 1 (alternating k)).length = 4 * k + 1 := by
  induction k with
  | zero => exact ⟨rfl, rfl⟩
  | succ k ih =>
    constructor
    · simp only [alternating, List.length_cons, ih.1]
      omega
    · have h : rleScan 0x1B 0x00 1 (alternating (k + 1)) = 0x00 :: 0x1B :: 0x01 :: 0x1B :: rleScan 0x1B 0x00 1 (alternating k) := by
        simp [alternating, rleScan, rleItem, rleMinRun]
      rw [h]
      simp only [List.length_cons, ih.2]
      omega

/-- A string that an encoding can carry and whose compression is longer than a `u32` can state. -/
theorem test_witness_RleCompressAnswers : ∃ x : ByteString, x.length < 4294967296 ∧ 4294967295 < (rleCompress x 0x1B).length := by
  obtain ⟨k, hk⟩ : ∃ k : Nat, k = 1073741824 := ⟨_, rfl⟩
  refine ⟨0x00 :: alternating k, ?_, ?_⟩
  · rw [List.length_cons, (alternating_length k).1]
    omega
  · rw [rleCompress, (alternating_length k).2]
    omega

/-- Items that are exactly, fewer than and more than what is expected; none at all. -/
theorem test_witness_RleDecompressAnswersByItems :
    (∀ x ∈ [RleItem.literal 0x41, .run 0x02 0x1B], x.valid 0x1B) ∧
    ([RleItem.literal 0x41, .run 0x02 0x1B].flatMap RleItem.plain).length = (3 : Word).toNat ∧
    ([RleItem.literal 0x41, .run 0x02 0x1B].flatMap RleItem.plain).length < (4 : Word).toNat ∧
    ¬ ([RleItem.literal 0x41, .run 0x02 0x1B].flatMap RleItem.plain).length ≤ (2 : Word).toNat ∧
    (∀ x ∈ ([] : List RleItem), x.valid 0x1B) ∧ (([] : List RleItem).flatMap RleItem.plain).length = (0 : Word).toNat := by
  refine ⟨?_, by decide, by decide, by decide, by simp, by decide⟩
  intro x hx
  rcases List.mem_cons.1 hx with rfl | hx
  · unfold RleItem.valid; decide
  · rw [List.mem_singleton.1 hx]; unfold RleItem.valid; decide

/-- Runs below, at and above the shortest token, a full one with more of its byte behind it, and the last of the input. -/
theorem test_witness_RleCompressEmitsWellFormedItems :
    (∀ n ∈ [1, 3, 4, 254], 1 ≤ n ∧ n ≤ 255 ∧ (n < 255 → ([0x42, 0x41] : ByteString).head? ≠ some 0x41)) ∧
    (1 ≤ 255 ∧ 255 ≤ 255 ∧ (255 < 255 → ([0x41] : ByteString).head? ≠ some 0x41)) ∧
    (1 ≤ 1 ∧ 1 ≤ 255 ∧ (1 < 255 → ([] : ByteString).head? ≠ some 0x1B)) := by decide

theorem test_witness_RleRoundTrip : ([] : ByteString).length ≤ 4294967295 ∧ ([0x1B, 0x1B] : ByteString).length ≤ 4294967295 := by decide

theorem test_witness_RleSizeBounds : (0x1B : Byte) ∉ ([0x41, 0x41] : ByteString) ∧ (0x1B : Byte) ∉ ([] : ByteString) := by decide

theorem test_witness_XorApplyAnswers : ∃ input : ByteString, 0 < input.length ∧ input.length - 1 < input.length := ⟨[1, 2], by decide⟩

/-- Both sides of both bounds of a divisor. -/
theorem test_witness_ChecksumCommandsAnswer : ((0 : Half).toNat = 0 ∨ 256 < (0 : Half).toNat) ∧
    ¬ ((1 : Half).toNat = 0 ∨ 256 < (1 : Half).toNat) ∧ ¬ ((256 : Half).toNat = 0 ∨ 256 < (256 : Half).toNat) ∧
    ((257 : Half).toNat = 0 ∨ 256 < (257 : Half).toNat) := by decide

theorem test_witness_ChecksumIsTheReducedSum : (1 ≤ 1 ∧ 1 ≤ 256) ∧ (1 ≤ 256 ∧ 256 ≤ 256) := by decide

theorem test_witness_ChecksumIgnoresZerosAndOrder : ([1, 2] : ByteString).Perm [2, 1] ∧
    (0xFF : Byte).toNat + (0x00 : Byte).toNat = (0x01 : Byte).toNat + (0xFE : Byte).toNat := ⟨List.Perm.swap _ _ _, by decide⟩

/-- A finite capacity exactly filled, and one byte more. -/
theorem test_witness_FifoAppendIsAllOrNothing : ∃ s : State, s.params.sbCap = some 4 ∧
    (∀ c, s.params.sbCap = some c → s.sb.data.length + [4].length ≤ c) ∧ 4 < s.sb.data.length + [4, 5].length := by
  refine ⟨{ fifo [1, 2, 3] 0 with params := { Params.default with sbCap := some 4 } }, rfl, ?_, by decide⟩
  intro c hc
  cases hc
  decide

/-- The cursor before the tail, and at it. -/
theorem test_witness_FifoReadReturnsUnreadBytes : ∀ rd ∈ [1, 3], ∃ out : ByteString, (fifo [1, 2, 3] rd).sb.rd ≤ (fifo [1, 2, 3] rd).sb.data.length ∧
    out = ((fifo [1, 2, 3] rd).sb.data.drop rd).take (8 : Word).toNat := by
  intro rd hrd
  refine ⟨_, ?_, rfl⟩
  simp only [List.mem_cons, List.not_mem_nil, or_false] at hrd
  rcases hrd with rfl | rfl <;> decide

/-- The whole FIFO, and one byte more than it. -/
theorem test_witness_FifoRemoveChunkShiftsTheCursor : ¬ (fifo [1, 2, 3] 1).sb.data.length < (3 : Word).toNat ∧
    (fifo [1, 2, 3] 1).sb.data.length < (4 : Word).toNat := by decide

theorem test_witness_FifoCursorsOnlyGrow : (∀ i ∈ [Instr.sbAppend [4], .sbRead 2], compacts i = false) ∧
    ∃ t, execAll [.sbAppend [4], .sbRead 2] (fifo [1, 2, 3] 1) = .next t := ⟨by decide, _, rfl⟩

theorem test_witness_FifoReturnsBytesInOrder : (∀ i ∈ [Instr.sbAppend [4], .sbRead 2], compacts i = false) ∧
    (fifo [1, 2, 3] 1).sb.rd ≤ (fifo [1, 2, 3] 1).sb.data.length ∧ (3 : Word).toNat ≤ (fifo [1, 2, 3] 1).sb.data.length ∧
    ∃ t, exec (.sbRemoveChunk 3) (fifo [1, 2, 3] 1) = .next t := ⟨by decide, by decide, by decide, _, rfl⟩

theorem test_witness_SafeCompactionKeepsUnreadBytes : ∃ t : State,
    exec .sbReadPos (fifo [1, 2, 3] 1) = .next { fifo [1, 2, 3] 1 with
      responses := (fifo [1, 2, 3] 1).answered (0x00 :: le32 1) } ∧
    (fifo [1, 2, 3] 1).sb.rd ≤ (fifo [1, 2, 3] 1).sb.data.length ∧ (∀ i ∈ [Instr.sbRead 1], compacts i = false) ∧
    execAll [.sbRead 1] (fifo [1, 2, 3] 1) = .next t := ⟨_, rfl, by decide, by decide, rfl⟩

end Sys2Proof.Tests
end

section
/-! What a command can do, said once: `CommandEffect` has one constructor per way a command can end, and `exec_effect` ties it to
`exec`. After it, the frame of each piece of state, and `step_keeps`, which lifts to a step what every command keeps. -/

namespace Sys2Proof.Machine

/-! ### The receiver's drain loop -/

theorem drainLoop_of_wait {s s' : State} (n : Nat) (h : drainStage s = (.wait, s')) : drainLoop (n + 1) s = s' := by
  simp [drainLoop, h]

theorem drainLoop_of_progress {s s' : State} (n : Nat) (h : drainStage s = (.progress, s')) :
    drainLoop (n + 1) s = drainLoop n s' := by
  simp [drainLoop, h]

/-- What every iteration keeps, the drain loop keeps. -/
theorem drainLoop_keeps {P : State → Prop} (hP : ∀ s, P s → P (drainStage s).2) (n : Nat) {s : State} (hs : P s) :
    P (drainLoop n s) := by
  induction n generalizing s with
  | zero => exact hs
  | succ n ih =>
    have hs' := hP s hs
    rcases h : drainStage s with ⟨_ | _, s'⟩ <;> rw [h] at hs'
    · rwa [drainLoop_of_wait n h]
    · rw [drainLoop_of_progress n h]
      exact ih hs'

/-- Draining touches the receiver, the events and the queue only. -/
theorem drain_frame (s : State) :
    drain s = { s with rx := (drain s).rx, ev := (drain s).ev, mq := (drain s).mq } := by
  obtain ⟨_, _, h, _, _⟩ := drainLoop_frame (drainBound s.rx.acc.length) s
  rw [drain, h]

/-- Draining adds to the events and to the queue, and the records it adds are MSG_LEN bytes long. -/
theorem drain_appends (s : State) : ∃ ev mq, (drain s).ev = s.ev ++ ev ∧ (drain s).mq = s.mq ++ mq ∧
    ∀ r ∈ mq, r.length = msgLen s.params := by
  obtain ⟨ev, mq, h, hmq, _⟩ := drainLoop_frame (drainBound s.rx.acc.length) s
  exact ⟨ev, mq, congrArg State.ev h, congrArg State.mq h, hmq⟩

@[simp] theorem drain_regs (s : State) : (drain s).regs = s.regs := by rw [drain_frame]
@[simp] theorem drain_sb (s : State) : (drain s).sb = s.sb := by rw [drain_frame]
@[simp] theorem drain_tx (s : State) : (drain s).tx = s.tx := by rw [drain_frame]

theorem drain_acc_length_le (s : State) : (drain s).rx.acc.length ≤ s.rx.acc.length := by
  obtain ⟨_, _, _, _, h⟩ := drainLoop_frame (drainBound s.rx.acc.length) s
  exact h

/-! ### What a command can do -/

/-- The ways a command can end in state `s`. -/
inductive CommandEffect (s : State) : Instr → State → Prop
  /-- Any command may be refused with a status, and nothing else happens (30_encoding.md R73). -/
  | refuse (i : Instr) (st : Status) : CommandEffect s i (s.raise st)
  /-- A command that answers only: CFG_READ, SB_READ_POS and the codecs (20_memory.md R56). -/
  | answer (i : Instr) (results : List Result) : CommandEffect s i (s.ret results)
  | write {reg : Byte} {r : Reg} {v : Word} : Reg.ofIndex reg = some r → r.writable = true → r.legal v = true →
      CommandEffect s (.cfgWrite reg v) ((s.writeReg r v).ret [])
  | reset : CommandEffect s .reset (s.resetBlock.ret [])
  | push {data : ByteString} : admits s.params.accCap (s.rx.acc.length + data.length) = true →
      CommandEffect s (.rxPush data) ((drain (s.setAcc (s.rx.acc ++ data))).ret [])
  | overflow {data : ByteString} : admits s.params.accCap (s.rx.acc.length + data.length) = false →
      CommandEffect s (.rxPush data) (((s.setRx Rx.reset).drop .accOverflow).ret [])
  | close : CommandEffect s .rxClose ((s.setRx Rx.reset).ret [])
  | rawWrite (receiverId opts : Byte) (payload : ByteString) :
      CommandEffect s (.txEncode receiverId opts 0 payload) ((s.txEmit payload).ret [.u32 (lengthWord payload.length)])
  | frame {receiverId opts : Byte} {payload : ByteString} : encoderRefuses opts = false →
      hdrLen + (framedBody s.params s.regs receiverId opts payload).length ≤ maxU32 →
      CommandEffect s (.txEncode receiverId opts 1 payload)
        (({ s.txEmit (wireFrame s.params s.regs receiverId opts payload) with regs := s.regs.afterFrame opts } : State).ret
          [.u32 (lengthWord (hdrLen + (framedBody s.params s.regs receiverId opts payload).length))])
  | fifoReset : CommandEffect s .sbReset ((s.setSb Sb.reset).ret [])
  | fifoAppend {data : ByteString} : admits s.params.sbCap (s.sb.data.length + data.length) = true →
      CommandEffect s (.sbAppend data) ((s.setSb { data := s.sb.data ++ data, rd := s.sb.rd }).ret [])
  | fifoRead (n : Word) :
      CommandEffect s (.sbRead n) ((s.setSb (s.sb.afterRead n.toNat)).ret [.bytes (s.sb.readBytes n.toNat)])
  | fifoRemove {n : Word} : n.toNat ≤ s.sb.data.length →
      CommandEffect s (.sbRemoveChunk n) ((s.setSb (s.sb.removeChunk n.toNat)).ret [])

/-- CFG_WRITE writes a legal value into a writable register, or answers BAD_OPERAND (47_system.md R210). -/
theorem exec_cfgWrite_cases (reg : Byte) (v : Word) (s : State) :
    (∃ r, Reg.ofIndex reg = some r ∧ r.writable = true ∧ r.legal v = true ∧
      exec (.cfgWrite reg v) s = .next ((s.writeReg r v).ret [])) ∨
    exec (.cfgWrite reg v) s = .next (s.raise .badOperand) := by
  simp only [exec, execCfgWrite]
  split
  · exact .inr rfl
  · rename_i r hr
    split
    · rename_i hw
      obtain ⟨hw, hl⟩ := Bool.and_eq_true_iff.1 hw
      exact .inl ⟨r, hr, hw, hl, rfl⟩
    · exact .inr rfl

theorem exec_cfgRead_of_index {reg : Byte} {r : Reg} (h : Reg.ofIndex reg = some r) (s : State) :
    exec (.cfgRead reg) s = .next (s.ret [.u32 (s.readReg r)]) := by
  simp [exec, execCfgRead, h]

theorem exec_rxPush_effect (data : ByteString) (s : State) :
    ∃ t, exec (.rxPush data) s = .next t ∧ CommandEffect s (.rxPush data) t := by
  simp only [exec, execRxPush]
  split
  · exact ⟨_, rfl, .push ‹_›⟩
  · rename_i h
    exact ⟨_, rfl, .overflow (Bool.eq_false_iff.2 h)⟩

theorem exec_txEncode_effect (receiverId opts useHeader : Byte) (payload : ByteString) (s : State) :
    ∃ t, exec (.txEncode receiverId opts useHeader payload) s = .next t ∧
      CommandEffect s (.txEncode receiverId opts useHeader payload) t := by
  simp only [exec, execTxEncode]
  split
  · subst useHeader
    exact ⟨_, rfl, .rawWrite ..⟩
  · split
    · subst useHeader
      rcases encodeFramed_cases receiverId opts payload s with ⟨_, h⟩ | ⟨_, _, h⟩ | ⟨hr, hl, h⟩ <;> rw [h]
      · exact ⟨_, rfl, .refuse ..⟩
      · exact ⟨_, rfl, .refuse ..⟩
      · exact ⟨_, rfl, .frame hr hl⟩
    · exact ⟨_, rfl, .refuse ..⟩

/-- Every command answers a next state, in one of these ways. -/
theorem exec_effect (i : Instr) (s : State) : ∃ t, exec i s = .next t ∧ CommandEffect s i t := by
  cases i with
  | cfgWrite reg v =>
    rcases exec_cfgWrite_cases reg v s with ⟨r, hr, hw, hl, h⟩ | h
    · exact ⟨_, h, .write hr hw hl⟩
    · exact ⟨_, h, .refuse ..⟩
  | cfgRead reg =>
    simp only [exec, execCfgRead]
    split
    · exact ⟨_, rfl, .refuse ..⟩
    · exact ⟨_, rfl, .answer ..⟩
  | reset => exact ⟨_, rfl, .reset⟩
  | rxPush data => exact exec_rxPush_effect data s
  | rxClose => exact ⟨_, rfl, .close⟩
  | txEncode receiverId opts useHeader payload => exact exec_txEncode_effect receiverId opts useHeader payload s
  | rleCompress esc input =>
    simp only [exec, execRleCompress]
    split
    · exact ⟨_, rfl, .refuse ..⟩
    · exact ⟨_, rfl, .answer ..⟩
  | rleDecompress esc expected input =>
    simp only [exec, execRleDecompress]
    split
    · exact ⟨_, rfl, .refuse ..⟩
    · exact ⟨_, rfl, .answer ..⟩
  | xorApply key input => exact ⟨_, rfl, .answer ..⟩
  | chkCompute divisor input =>
    simp only [exec, execChkCompute]
    split
    · exact ⟨_, rfl, .answer ..⟩
    · exact ⟨_, rfl, .refuse ..⟩
  | chkVerify divisor expected input =>
    simp only [exec, execChkVerify]
    split
    · exact ⟨_, rfl, .answer ..⟩
    · exact ⟨_, rfl, .refuse ..⟩
  | sbReset => exact ⟨_, rfl, .fifoReset⟩
  | sbAppend data =>
    simp only [exec, execSbAppend]
    split
    · exact ⟨_, rfl, .fifoAppend ‹_›⟩
    · exact ⟨_, rfl, .refuse ..⟩
  | sbRead n => exact ⟨_, rfl, .fifoRead n⟩
  | sbRemoveChunk n =>
    simp only [exec, execSbRemoveChunk]
    split
    · exact ⟨_, rfl, .refuse ..⟩
    · exact ⟨_, rfl, .fifoRemove (by omega)⟩
  | sbReadPos => exact ⟨_, rfl, .answer ..⟩

theorem CommandEffect.of_exec {i : Instr} {s t : State} (h : exec i s = .next t) : CommandEffect s i t := by
  obtain ⟨t', h', he⟩ := exec_effect i s
  cases h'.symm.trans h
  exact he

/-! ### What a command leaves unchanged -/

theorem Regs.afterFrame_eq_but_txSeq (r : Regs) (opts : Byte) :
    r.afterFrame opts = { r with txSeq := (r.afterFrame opts).txSeq } := by
  unfold Regs.afterFrame
  split <;> rfl

/-- Writing a register that the map admits leaves CHK_DIV within its range (10_state.md R23). -/
theorem registersLegal_writeReg {s : State} {r : Reg} {v : Word} (hs : RegistersLegal s) (hl : r.legal v = true) :
    RegistersLegal (s.writeReg r v) := by
  cases r with
  | chkDiv =>
    obtain ⟨h1, h256⟩ : 1 ≤ v.toNat ∧ v.toNat ≤ 256 := by simpa [Reg.legal] using hl
    have hv : (v.setWidth 9).toNat = v.toNat := by rw [BitVec.toNat_setWidth]; omega
    exact ⟨hv ▸ h1, hv ▸ h256⟩
  | _ => exact hs

section CommandEffect
variable {s t : State} {i : Instr} (h : CommandEffect s i t)
include h

/-- No command changes the parameters, what stands at the ports, the requests for messages and their answers, the port or the turn;
and each gives one response. -/
theorem CommandEffect.frame_eq : ∃ bytes, t = { s with
    regs := t.regs, rx := t.rx, sb := t.sb, tx := t.tx, ev := t.ev, mq := t.mq, responses := s.answered bytes } := by
  cases h with
  | push => exact ⟨_, by rw [drain_frame]; rfl⟩
  | _ => exact ⟨_, rfl⟩

theorem CommandEffect.params_eq : t.params = s.params := by
  obtain ⟨_, hframe⟩ := h.frame_eq
  rw [hframe]

theorem CommandEffect.rx_eq (hpush : ∀ d, i ≠ .rxPush d) (hclose : i ≠ .rxClose) (hreset : i ≠ .reset) : t.rx = s.rx := by
  cases h with
  | push => exact absurd rfl (hpush _)
  | overflow => exact absurd rfl (hpush _)
  | close => exact absurd rfl hclose
  | reset => exact absurd rfl hreset
  | _ => rfl

theorem CommandEffect.regs_eq (hwrite : ∀ r v, i ≠ .cfgWrite r v) (hreset : i ≠ .reset)
    (htx : ∀ a b c d, i ≠ .txEncode a b c d) : t.regs = s.regs := by
  cases h with
  | write => exact absurd rfl (hwrite _ _)
  | reset => exact absurd rfl hreset
  | frame => exact absurd rfl (htx _ _ _ _)
  | push => exact drain_regs _
  | _ => rfl

theorem CommandEffect.regs_eq_but_txSeq (hwrite : ∀ r v, i ≠ .cfgWrite r v) (hreset : i ≠ .reset) :
    t.regs = { s.regs with txSeq := t.regs.txSeq } := by
  cases h with
  | write => exact absurd rfl (hwrite _ _)
  | reset => exact absurd rfl hreset
  | frame => exact Regs.afterFrame_eq_but_txSeq _ _
  | push => simp
  | _ => rfl

theorem CommandEffect.sb_eq (happend : ∀ d, i ≠ .sbAppend d) (hread : ∀ n, i ≠ .sbRead n) (hremove : ∀ n, i ≠ .sbRemoveChunk n)
    (hsbReset : i ≠ .sbReset) (hreset : i ≠ .reset) : t.sb = s.sb := by
  cases h with
  | fifoAppend => exact absurd rfl (happend _)
  | fifoRead => exact absurd rfl (hread _)
  | fifoRemove => exact absurd rfl (hremove _)
  | fifoReset => exact absurd rfl hsbReset
  | reset => exact absurd rfl hreset
  | push => exact drain_sb _
  | _ => rfl

theorem CommandEffect.tx_eq (htx : ∀ a b c d, i ≠ .txEncode a b c d) : t.tx = s.tx := by
  cases h with
  | rawWrite => exact absurd rfl (htx _ _ _ _)
  | frame => exact absurd rfl (htx _ _ _ _)
  | push => exact drain_tx _
  | _ => rfl

theorem CommandEffect.ev_mq_eq (hpush : ∀ d, i ≠ .rxPush d) : t.ev = s.ev ∧ t.mq = s.mq := by
  cases h with
  | push => exact absurd rfl (hpush _)
  | overflow => exact absurd rfl (hpush _)
  | _ => exact ⟨rfl, rfl⟩

/-! ### What a command does to the streams, the queue, the registers and the receiver -/

theorem CommandEffect.tx_grows : s.tx <+: t.tx := by
  cases h with
  | rawWrite => exact List.prefix_append _ _
  | frame => exact List.prefix_append _ _
  | push => simp
  | _ => exact List.prefix_rfl

theorem CommandEffect.ev_grows : s.ev <+: t.ev := by
  cases h with
  | @push data _ =>
    obtain ⟨ev, _, hev, _⟩ := drain_appends (s.setAcc (s.rx.acc ++ data))
    exact ⟨ev, hev.symm⟩
  | overflow => exact List.prefix_append _ _
  | _ => exact List.prefix_rfl

/-- A command only adds to the queue, and what it adds are records of MSG_LEN bytes. -/
theorem CommandEffect.mq_grows : ∃ new, t.mq = s.mq ++ new ∧ ∀ r ∈ new, r.length = msgLen s.params := by
  cases h with
  | @push data _ =>
    obtain ⟨_, mq, _, hmq, hlen⟩ := drain_appends (s.setAcc (s.rx.acc ++ data))
    exact ⟨mq, hmq, hlen⟩
  | _ => exact ⟨[], (List.append_nil _).symm, by simp⟩

/-- CHK_DIV after a command is the old one, its reset value, or a legal value that CFG_WRITE stored. -/
theorem CommandEffect.keeps_registersLegal (hs : RegistersLegal s) : RegistersLegal t := by
  cases h with
  | write _ _ hl => exact registersLegal_writeReg hs hl
  | reset => exact (by decide : 1 ≤ Regs.reset.chkDiv.toNat ∧ Regs.reset.chkDiv.toNat ≤ 256)
  | frame => unfold RegistersLegal; rw [State.ret_regs, Regs.afterFrame_eq_but_txSeq]; exact hs
  | push => simpa [RegistersLegal] using hs
  | _ => exact hs

/-- The receiver after a command: as it was, at its reset value, or drained with the pushed bytes behind the buffer. -/
theorem CommandEffect.rx_cases : t.rx = s.rx ∨ t.rx = Rx.reset ∨
    ∃ data, admits s.params.accCap (s.rx.acc.length + data.length) = true ∧ t.rx = (drain (s.setAcc (s.rx.acc ++ data))).rx := by
  cases h with
  | push ha => exact .inr (.inr ⟨_, ha, rfl⟩)
  | overflow => exact .inr (.inl rfl)
  | close => exact .inr (.inl rfl)
  | reset => exact .inr (.inl rfl)
  | _ => exact .inl rfl

end CommandEffect

/-! ### What a step keeps -/

/-- A transaction is taken from a port: the queues at the ports, the port and the turn may change, and nothing else. -/
theorem State.take_frame {s u : State} {p : Port} {tx : ByteString} (h : s.take p = some (tx, u)) :
    u = { s with p0 := u.p0, p1 := u.p1, port := u.port, turn := u.turn } := by
  obtain ⟨q, _, rfl⟩ := State.take_eq_some h
  cases p <;> rfl

/-- What holds of the state stays so over a step, when removing a message for the host, taking a transaction and every command keep
it; a transaction that does not decode is answered like a refused command. -/
theorem step_keeps {P : State → Prop} (hmessage : ∀ s, P s → P s.serveMessage)
    (htake : ∀ s q0 q1 p n, P s → P { s with p0 := q0, p1 := q1, port := p, turn := n })
    (hcommand : ∀ s i t, CommandEffect s i t → P s → P t) {s t : State} (h : step s = .next t) (hs : P s) : P t := by
  unfold step at h
  split at h
  · cases h; exact hs
  · rename_i p _
    unfold servePort at h
    split at h
    · cases h; exact hs
    · rename_i tx u hu
      have hPu : P u := by
        rw [State.take_frame hu]
        exact htake _ _ _ _ _ hs
      unfold performTransaction at h
      split at h
      · cases h
        exact hcommand _ .reset _ (.refuse _ _) hPu
      · exact hcommand _ _ _ (.of_exec h) hPu
  · cases h; exact hmessage _ hs

end Sys2Proof.Machine
end

section
/-! Family 10_state.md: the receiver, the registers and the queue under every step, and the frame of every command. -/

namespace Sys2Proof.Machine

/-! ### The drain loop leaves no complete unit unprocessed (41_frame_receiver.md R101, 10_state.md R27) -/

/-- A bound on the iterations the drain loop still makes, the one that waits included: each accepted header takes HDR_LEN bytes and
is followed by one payload. -/
def drainRank (s : State) : Nat :=
  2 * (s.rx.acc.length / hdrLen) +
    match s.rx.state with
    | .awaitingHeader => 1
    | .awaitingPayload => 2

theorem drainRank_of_awaitingHeader {s : State} (h : s.rx.state = .awaitingHeader) :
    drainRank s = 2 * (s.rx.acc.length / 20) + 1 := by
  rw [drainRank, h]; rfl

theorem drainRank_of_awaitingPayload {s : State} (h : s.rx.state = .awaitingPayload) :
    drainRank s = 2 * (s.rx.acc.length / 20) + 2 := by
  rw [drainRank, h]; rfl

theorem drainRank_le_drainBound (s : State) : drainRank s ≤ drainBound s.rx.acc.length := by
  unfold drainRank drainBound
  split <;> omega

/-- An iteration waits with nothing complete left, or progresses to a state of smaller rank; the receiver stays consistent. -/
def StageSettles (s : State) : Prop :=
  ∃ s', ReceiverConsistent s' ∧
    (drainStage s = (.wait, s') ∧ ReceiverDrained s' ∨ drainStage s = (.progress, s') ∧ drainRank s' < drainRank s)

theorem stageSettles_of_awaitingHeader {s : State} (hc : ReceiverConsistent s) (hst : s.rx.state = .awaitingHeader) :
    StageSettles s := by
  have hstage : drainStage s = headerStage s := by rw [drainStage, hst]
  unfold StageSettles
  rw [hstage]
  rcases headerStage_cases s with ⟨hl, h⟩ | ⟨_, r, _, h⟩ | ⟨hl, hd, _, _, _, h⟩
  · exact ⟨s, hc, .inl ⟨h, fun _ => hl, by simp [hst]⟩⟩
  · exact ⟨(s.setAcc []).drop r, hc, .inl ⟨h, fun _ => by simp [hdrLen], by simp [hst]⟩⟩
  · refine ⟨_, by simp [ReceiverConsistent], .inr ⟨h, ?_⟩⟩
    rw [drainRank_of_awaitingHeader hst, drainRank_of_awaitingPayload rfl, State.setRx_rx, List.length_drop]
    unfold hdrLen at *
    omega

theorem stageSettles_of_awaitingPayload {s : State} (hc : ReceiverConsistent s) (hst : s.rx.state = .awaitingPayload) :
    StageSettles s := by
  have hstage : drainStage s = payloadStage s := by rw [drainStage, hst]
  unfold StageSettles
  rw [hstage]
  rcases payloadStage_cases s with ⟨hn, _⟩ | ⟨hd, hhd, hl, h⟩ | ⟨hd, _, _, h⟩
  · exact absurd ((hc.2 hn).symm.trans hst) (by simp)
  · exact ⟨s, hc, .inl ⟨h, by simp [hst], by simpa [hhd] using fun _ => hl⟩⟩
  · refine ⟨_, by simp [ReceiverConsistent], .inr ⟨h, ?_⟩⟩
    rw [drainRank_of_awaitingPayload hst, drainRank_of_awaitingHeader (by simp), processPayload_rx, State.setRx_rx,
      List.length_drop]
    omega

theorem stageSettles {s : State} (hc : ReceiverConsistent s) : StageSettles s := by
  cases hst : s.rx.state with
  | awaitingHeader => exact stageSettles_of_awaitingHeader hc hst
  | awaitingPayload => exact stageSettles_of_awaitingPayload hc hst

/-- As many iterations as the rank says end the loop with nothing complete left. -/
theorem drainLoop_drained (n : Nat) {s : State} (hc : ReceiverConsistent s) (hn : drainRank s ≤ n) :
    ReceiverConsistent (drainLoop n s) ∧ ReceiverDrained (drainLoop n s) := by
  induction n generalizing s with
  | zero =>
    unfold drainRank at hn
    split at hn <;> omega
  | succ n ih =>
    obtain ⟨s', hc', ⟨hw, hd⟩ | ⟨hp, hlt⟩⟩ := stageSettles hc
    · rw [drainLoop_of_wait n hw]
      exact ⟨hc', hd⟩
    · rw [drainLoop_of_progress n hp]
      exact ih hc' (by omega)

theorem drain_drained {s : State} (hc : ReceiverConsistent s) : ReceiverConsistent (drain s) ∧ ReceiverDrained (drain s) :=
  drainLoop_drained _ hc (drainRank_le_drainBound s)

/-- 10_state.md R27 speaks of the receiver only. -/
theorem receiverDrained_congr {s t : State} (h : t.rx = s.rx) :
    ReceiverConsistent t ∧ ReceiverDrained t ↔ ReceiverConsistent s ∧ ReceiverDrained s := by
  unfold ReceiverConsistent ReceiverDrained
  rw [h]

theorem CommandEffect.keeps_receiverDrained {s t : State} {i : Instr} (h : CommandEffect s i t)
    (hs : ReceiverConsistent s ∧ ReceiverDrained s) : ReceiverConsistent t ∧ ReceiverDrained t := by
  rcases h.rx_cases with hrx | hrx | ⟨data, _, hrx⟩
  · exact (receiverDrained_congr hrx).2 hs
  · simp [ReceiverConsistent, ReceiverDrained, hrx, Rx.reset, hdrLen]
  · exact (receiverDrained_congr hrx).2 (drain_drained hs.1)

/-- Settles O17: the drain loop's bound suffices, by induction on the rank of the receiver. -/
theorem stepKeepsReceiverDrained : Obligations.StepKeepsReceiverDrained := by
  intro s t hc hd hstep
  exact step_keeps (P := fun u => ReceiverConsistent u ∧ ReceiverDrained u) (fun _ h => h) (fun _ _ _ _ _ h => h)
    (fun _ _ _ he h => he.keeps_receiverDrained h) hstep ⟨hc, hd⟩

/-! ### The buffer's capacity and the held header (10_state.md R25, R26) -/

/-- An iteration holds a header only after its signature test (41_frame_receiver.md R103). -/
theorem drainStage_keeps_heldHeaderSigned (s : State) (hs : HeldHeaderSigned s) : HeldHeaderSigned (drainStage s).2 := by
  unfold drainStage
  split
  · rcases headerStage_cases s with ⟨_, h⟩ | ⟨_, r, _, h⟩ | ⟨_, hd, _, hsigned, _, h⟩ <;> rw [h]
    · exact hs
    · exact hs
    · intro hd' heq
      cases heq
      exact (Header.signed_iff hd).1 hsigned
  · rcases payloadStage_cases s with ⟨_, h⟩ | ⟨_, _, _, h⟩ | ⟨_, _, _, h⟩ <;> rw [h]
    · exact hs
    · exact hs
    · simp [HeldHeaderSigned]

theorem drain_keeps_heldHeaderSigned {s : State} (hs : HeldHeaderSigned s) : HeldHeaderSigned (drain s) :=
  drainLoop_keeps drainStage_keeps_heldHeaderSigned _ hs

theorem CommandEffect.keeps_heldHeaderSigned {s t : State} {i : Instr} (h : CommandEffect s i t) (hs : HeldHeaderSigned s) :
    HeldHeaderSigned t := by
  unfold HeldHeaderSigned
  rcases h.rx_cases with hrx | hrx | ⟨data, _, hrx⟩ <;> rw [hrx]
  · exact hs
  · simp [Rx.reset]
  · exact drain_keeps_heldHeaderSigned hs

theorem CommandEffect.keeps_accumulationWithinCap {s t : State} {i : Instr} (h : CommandEffect s i t)
    (hs : AccumulationWithinCap s) : AccumulationWithinCap t := by
  unfold AccumulationWithinCap
  rw [h.params_eq]
  rcases h.rx_cases with hrx | hrx | ⟨data, ha, hrx⟩ <;> rw [hrx]
  · exact hs
  · simp [Rx.reset]
  · intro c hc
    have hle : (drain (s.setAcc (s.rx.acc ++ data))).rx.acc.length ≤ (s.rx.acc ++ data).length := drain_acc_length_le _
    have hcap : s.rx.acc.length + data.length ≤ c := by simpa [admits, hc] using ha
    rw [List.length_append] at hle
    omega

/-- Settles O19: a push is admitted only within the capacity, and draining removes bytes only. -/
theorem stepKeepsAccumulationWithinCap : Obligations.StepKeepsAccumulationWithinCap := by
  intro s t hcap hsig hstep
  exact step_keeps (P := fun u => AccumulationWithinCap u ∧ HeldHeaderSigned u) (fun _ h => h) (fun _ _ _ _ _ h => h)
    (fun _ _ _ he ⟨hc, hh⟩ => ⟨he.keeps_accumulationWithinCap hc, he.keeps_heldHeaderSigned hh⟩) hstep ⟨hcap, hsig⟩

/-! ### The registers, the queue and the parameters (10_state.md R23, 60_exceptions.md R232, 00_scope.md R6) -/

theorem serveMessage_keeps_queueHoldsRecords {s : State} (hs : QueueHoldsRecords s) : QueueHoldsRecords s.serveMessage :=
  fun r hr => hs r (List.mem_of_mem_drop hr)

theorem CommandEffect.keeps_queueHoldsRecords {s t : State} {i : Instr} (h : CommandEffect s i t) (hs : QueueHoldsRecords s) :
    QueueHoldsRecords t := by
  obtain ⟨new, hmq, hlen⟩ := h.mq_grows
  intro r hr
  rw [h.params_eq]
  rw [hmq] at hr
  rcases List.mem_append.1 hr with hr | hr
  · exact hs r hr
  · exact hlen r hr

theorem step_params {s t : State} (h : step s = .next t) : t.params = s.params :=
  step_keeps (P := fun u => u.params = s.params) (fun _ h => h) (fun _ _ _ _ _ h => h)
    (fun _ _ _ he h => he.params_eq.trans h) h rfl

/-- Settles O20: CFG_WRITE stores legal values only, and only records of MSG_LEN bytes are enqueued. -/
theorem stepKeepsRegistersLegalAndRecordsSized : Obligations.StepKeepsRegistersLegalAndRecordsSized := by
  intro s t hregs hmq hstep
  have hkept : RegistersLegal t ∧ QueueHoldsRecords t :=
    step_keeps (P := fun u => RegistersLegal u ∧ QueueHoldsRecords u)
      (fun _ ⟨hr, hq⟩ => ⟨hr, serveMessage_keeps_queueHoldsRecords hq⟩) (fun _ _ _ _ _ h => h)
      (fun _ _ _ he ⟨hr, hq⟩ => ⟨he.keeps_registersLegal hr, he.keeps_queueHoldsRecords hq⟩) hstep ⟨hregs, hmq⟩
  exact ⟨hkept.1, hkept.2, step_params hstep⟩

/-! ### The frame of every command, and the streams -/

/-- Settles O12, from the frame of each piece of state. -/
theorem stateChangesOnlyByItsCommands : Obligations.StateChangesOnlyByItsCommands := by
  intro i s t hexec
  have h := CommandEffect.of_exec hexec
  refine ⟨h.rx_eq, h.regs_eq_but_txSeq, h.regs_eq, h.sb_eq, h.tx_eq, h.ev_mq_eq, ?_⟩
  obtain ⟨_, hframe⟩ := h.frame_eq
  rw [hframe]
  simp

/-- The streams of `s` are the beginnings of the streams of `t`. -/
def StreamsExtend (s t : State) : Prop :=
  s.tx <+: t.tx ∧ s.ev <+: t.ev ∧ s.responses <+: t.responses ∧ s.mqAnswers <+: t.mqAnswers

theorem StreamsExtend.trans {s t u : State} (h : StreamsExtend s t) (h' : StreamsExtend t u) : StreamsExtend s u := by
  obtain ⟨htx, hev, hresp, hans⟩ := h
  obtain ⟨htx', hev', hresp', hans'⟩ := h'
  exact ⟨htx.trans htx', hev.trans hev', hresp.trans hresp', hans.trans hans'⟩

theorem streamsExtend_refl (s : State) : StreamsExtend s s :=
  ⟨List.prefix_rfl, List.prefix_rfl, List.prefix_rfl, List.prefix_rfl⟩

theorem streamsExtend_serveMessage (s : State) : StreamsExtend s s.serveMessage :=
  ⟨List.prefix_rfl, List.prefix_rfl, List.prefix_rfl, List.prefix_append _ _⟩

theorem CommandEffect.streamsExtend {s t : State} {i : Instr} (h : CommandEffect s i t) : StreamsExtend s t := by
  obtain ⟨bytes, hframe⟩ := h.frame_eq
  refine ⟨h.tx_grows, h.ev_grows, ?_, ?_⟩ <;> rw [hframe]
  exact List.prefix_append _ _

/-- Settles O14: each command's response, and each event and TX byte, goes behind those already there. -/
theorem stepOnlyAppendsToStreams : Obligations.StepOnlyAppendsToStreams := by
  intro s t hstep
  exact step_keeps (P := StreamsExtend s) (fun u h => h.trans (streamsExtend_serveMessage u)) (fun _ _ _ _ _ h => h)
    (fun _ _ _ he h => h.trans he.streamsExtend) hstep (streamsExtend_refl s)

/-! ### A written register reads back (10_state.md R23) -/

theorem setWidth_8_setWidth {v : Word} (h : v.toNat ≤ 255) : (v.setWidth 8).setWidth 32 = v :=
  BitVec.setWidth_setWidth_eq_self (BitVec.lt_def.2 (show v.toNat < 256 by omega))

theorem setWidth_9_setWidth {v : Word} (h : v.toNat ≤ 256) : (v.setWidth 9).setWidth 32 = v :=
  BitVec.setWidth_setWidth_eq_self (BitVec.lt_def.2 (show v.toNat < 512 by omega))

/-- A legal value fits its register, so that nothing is lost by truncation. -/
theorem readReg_writeReg {r : Reg} {v : Word} (hw : r.writable = true) (hl : r.legal v = true) (s : State) :
    (s.writeReg r v).readReg r = v := by
  cases r with
  | stationId | rleEsc | txKey | txPriority => exact setWidth_8_setWidth (of_decide_eq_true hl)
  | chkDiv =>
    obtain ⟨_, h256⟩ := of_decide_eq_true hl
    exact setWidth_9_setWidth h256
  | txSeq | txTime => rfl
  | rxState | rxAccLen | rxPendLen | sbTail | sbRd => cases hw

/-- Settles O24: a CFG_WRITE that answered OK stored its value, and the value fits. -/
theorem writtenRegisterReadsBack : Obligations.WrittenRegisterReadsBack := by
  intro s t reg v hexec hok
  rcases exec_cfgWrite_cases reg v s with ⟨r, hr, hw, hl, h⟩ | h <;> cases hexec.symm.trans h
  · have hread : ((s.writeReg r v).ret []).readReg r = v := readReg_writeReg hw hl s
    rw [exec_cfgRead_of_index hr, hread]
    simp [State.ret, State.respond, State.answered, responseBytes, Status.code, Result.encode]
  · simp [State.answered, responseBytes, Status.code] at hok

end Sys2Proof.Machine
end

section
/-! Family 20_memory.md: the step by the agent that is granted, and the transaction it performs by how it decodes; then the arbiter,
what P1 can reach, and the commands that answer only. -/

namespace Sys2Proof.Machine

/-! ### The step, equation by equation (20_memory.md R54, R55) -/

theorem performTransaction_of_decode_ok {p : Port} {tx : ByteString} {i : Instr} (h : decode p tx = .ok i) (s : State) :
    performTransaction p tx s = exec i s := by
  simp [performTransaction, h]

theorem performTransaction_of_decode_error {p : Port} {tx : ByteString} {e : DecodeError} (h : decode p tx = .error e) (s : State) :
    performTransaction p tx s = .next (s.raise (decodeStatus e)) := by
  simp [performTransaction, h]

theorem servePort_of_empty {s : State} {p : Port} (h : s.pending p = []) : servePort p s = .next s := by
  simp [servePort, State.take, h]

theorem servePort_of_pending {s : State} {p : Port} {tx : ByteString} {q : List ByteString} (h : s.pending p = tx :: q) :
    servePort p s = performTransaction p tx { s.setPending p q with port := p, turn := s.turn + 1 } := by
  simp [servePort, State.take_of_pending h]

theorem step_of_granted_none {s : State} (h : s.granted = none) : step s = .next s := by simp [step, h]

theorem step_of_granted_port {s : State} {p : Port} (h : s.granted = some (.port p)) : step s = servePort p s := by
  simp [step, h]

theorem step_of_granted_queueReader {s : State} (h : s.granted = some .queueReader) : step s = .next s.serveMessage := by
  simp [step, h]

@[simp] theorem State.setPending_responses (s : State) (p : Port) (q : List ByteString) :
    (s.setPending p q).responses = s.responses := by
  cases p <;> rfl

/-- A transaction that does not decode is answered with one byte, its status (30_encoding.md R74). -/
theorem responseBytes_decodeStatus (e : DecodeError) :
    responseBytes (decodeStatus e) [] = [if e = .illegalOpcode then 0x01 else 0x02] := by
  cases e <;> rfl

/-! ### Every step completes -/

theorem performTransaction_completes (p : Port) (tx : ByteString) (s : State) : Completes (performTransaction p tx s) := by
  cases h : decode p tx with
  | error e => exact ⟨_, performTransaction_of_decode_error h s⟩
  | ok i =>
    obtain ⟨t, hexec, _⟩ := exec_effect i s
    exact ⟨t, (performTransaction_of_decode_ok h s).trans hexec⟩

theorem servePort_completes (p : Port) (s : State) : Completes (servePort p s) := by
  cases h : s.pending p with
  | nil => exact ⟨s, servePort_of_empty h⟩
  | cons tx q =>
    rw [servePort_of_pending h]
    exact performTransaction_completes ..

/-- Settles O8: whichever agent is granted, every command answers (`exec_effect`), and so does a transaction that does not decode. -/
theorem everyStepCompletes : Obligations.EveryStepCompletes := by
  intro s
  cases h : s.granted with
  | none => exact ⟨s, step_of_granted_none h⟩
  | some agent =>
    cases agent with
    | port p =>
      rw [step_of_granted_port h]
      exact servePort_completes p s
    | queueReader => exact ⟨_, step_of_granted_queueReader h⟩

/-! ### What P1 can reach (20_memory.md R54) -/

/-- The operands that are read belong to a command of the opcode that was read. -/
theorem parseOperands_opcode {op : Opcode} {rest : ByteString} {i : Instr} (h : parseOperands op rest = some i) : i.opcode = op := by
  cases op with
  | reset | rxClose | sbReset | sbReadPos =>
    obtain ⟨_, rfl⟩ := takeEnd_eq_some h
    rfl
  | cfgRead | rxPush | sbAppend | sbRead | sbRemoveChunk =>
    obtain ⟨_, _, h⟩ := Option.bind_eq_some_iff.1 h
    obtain ⟨_, rfl⟩ := takeEnd_eq_some h
    rfl
  | cfgWrite | rleCompress | xorApply | chkCompute =>
    obtain ⟨_, _, h⟩ := Option.bind_eq_some_iff.1 h
    obtain ⟨_, _, h⟩ := Option.bind_eq_some_iff.1 h
    obtain ⟨_, rfl⟩ := takeEnd_eq_some h
    rfl
  | rleDecompress | chkVerify =>
    obtain ⟨_, _, h⟩ := Option.bind_eq_some_iff.1 h
    obtain ⟨_, _, h⟩ := Option.bind_eq_some_iff.1 h
    obtain ⟨_, _, h⟩ := Option.bind_eq_some_iff.1 h
    obtain ⟨_, rfl⟩ := takeEnd_eq_some h
    rfl
  | txEncode =>
    obtain ⟨_, _, h⟩ := Option.bind_eq_some_iff.1 h
    obtain ⟨_, _, h⟩ := Option.bind_eq_some_iff.1 h
    obtain ⟨_, _, h⟩ := Option.bind_eq_some_iff.1 h
    obtain ⟨_, _, h⟩ := Option.bind_eq_some_iff.1 h
    obtain ⟨_, rfl⟩ := takeEnd_eq_some h
    rfl

/-- A port decodes only the commands it accepts (30_encoding.md R74). -/
theorem acceptedOn_of_decode_ok {p : Port} {tx : ByteString} {i : Instr} (h : decode p tx = .ok i) :
    i.opcode.acceptedOn p = true := by
  unfold decode at h
  split at h
  · cases h
  · split at h
    · cases h
    · split at h
      · rename_i haccepts
        split at h
        · cases h
        · rename_i hparse
          cases h
          rwa [parseOperands_opcode hparse]
      · cases h

/-- A command that P1 accepts touches the FIFO and answers, and does nothing else. -/
theorem CommandEffect.frame_of_onP1 {s t : State} {i : Instr} (h : CommandEffect s i t) (hi : i.opcode.onP1 = true) :
    ∃ bytes, t = { s with sb := t.sb, responses := s.answered bytes } := by
  cases h with
  | refuse | answer | fifoReset | fifoAppend | fifoRead | fifoRemove => exact ⟨_, rfl⟩
  | write | reset | push | overflow | close | rawWrite | frame => cases hi

/-- Whether it decodes or not, a transaction at P1 touches the FIFO and gets one response, and does nothing else. -/
theorem performTransaction_p1_frame {tx : ByteString} {s t : State} (h : performTransaction .p1 tx s = .next t) :
    ∃ bytes, t = { s with sb := t.sb, responses := s.answered bytes } := by
  cases hd : decode .p1 tx with
  | error e =>
    cases (performTransaction_of_decode_error hd s).symm.trans h
    exact ⟨_, rfl⟩
  | ok i =>
    have hexec : exec i s = .next t := (performTransaction_of_decode_ok hd s).symm.trans h
    exact (CommandEffect.of_exec hexec).frame_of_onP1 (acceptedOn_of_decode_ok hd)

/-- Settles O15: P1 decodes FIFO commands only, and taking a transaction moves only its queue, the port and the turn. -/
theorem portOneReachesOnlyTheFifo : Obligations.PortOneReachesOnlyTheFifo := by
  intro s t h
  cases hq : s.pending .p1 with
  | nil =>
    cases (servePort_of_empty hq).symm.trans h
    exact ⟨rfl, rfl, rfl, rfl, rfl, rfl, rfl, rfl, rfl, [], by simp⟩
  | cons tx q =>
    rw [servePort_of_pending hq] at h
    obtain ⟨bytes, hframe⟩ := performTransaction_p1_frame h
    rw [hframe]
    exact ⟨rfl, rfl, rfl, rfl, rfl, rfl, rfl, rfl, rfl, [{ port := .p1, bytes := bytes }], rfl, by simp⟩

/-! ### The step of a granted port -/

/-- Settles O6, by the equations of the step. -/
theorem stepRunsDecodedCommand : Obligations.StepRunsDecodedCommand := by
  intro s p tx q hgranted hpending
  have hstep : step s = performTransaction p tx { s.setPending p q with port := p, turn := s.turn + 1 } :=
    (step_of_granted_port hgranted).trans (servePort_of_pending hpending)
  constructor
  · intro i hd
    exact hstep.trans (performTransaction_of_decode_ok hd _)
  · intro e hd
    rw [hstep, performTransaction_of_decode_error hd, State.raise, State.respond, responseBytes_decodeStatus,
      State.setPending_responses]

/-! ### The arbiter (20_memory.md R54, R57, 70_reset_and_hazards.md R290) -/

/-- The reader of the message queue waits when a request stands. -/
theorem State.queueReader_mem_waiting_iff {s : State} : Agent.queueReader ∈ s.waiting ↔ s.mqReads ≠ 0 := by
  simp [State.waiting]

theorem State.waiting_eq_nil_iff {s : State} : s.waiting = [] ↔ s.p0 = [] ∧ s.p1 = [] ∧ s.mqReads = 0 := by
  simp [State.waiting]

theorem State.granted_of_waiting_singleton {s : State} {a : Agent} (h : s.waiting = [a]) : s.granted = some a := by
  simp [State.granted, h]

/-- Settles O7, from the agents that wait in each case. -/
theorem arbiterServesAWaitingAgent : Obligations.ArbiterServesAWaitingAgent := by
  intro s
  refine ⟨fun p h => ?_, fun h => ?_, ?_, fun h0 h1 hr => ?_, fun h0 h1 hr => ?_, fun h0 h1 hr => ?_, fun p hreserved hp => ?_,
    step_of_granted_none⟩
  · exact State.port_mem_waiting_iff.1 (State.granted_mem_waiting h)
  · exact State.queueReader_mem_waiting_iff.1 (State.granted_mem_waiting h)
  · exact State.granted_eq_none_iff.trans State.waiting_eq_nil_iff
  · exact State.granted_of_waiting_singleton (by simp [State.waiting, h0, h1, hr])
  · exact State.granted_of_waiting_singleton (by simp [State.waiting, h0, h1, hr])
  · exact State.granted_of_waiting_singleton (by simp [State.waiting, h0, h1, hr])
  · exact State.granted_of_reserved hp hreserved

/-! ### Commands that answer only (20_memory.md R56) -/

/-- The response is decided by the operands, and nothing else changes. -/
def AnswersByOperands (i : Instr) : Prop := ∃ b, ∀ s : State, exec i s = .next { s with responses := s.answered b }

theorem answersByOperands_rleCompress (esc : Byte) (input : ByteString) : AnswersByOperands (.rleCompress esc input) := by
  by_cases hlong : (rleCompress input esc).length > maxU32
  · exact ⟨_, fun s => if_pos hlong⟩
  · exact ⟨_, fun s => if_neg hlong⟩

theorem answersByOperands_rleDecompress (esc : Byte) (expected : Word) (input : ByteString) :
    AnswersByOperands (.rleDecompress esc expected input) := by
  cases hout : rleDecompress input esc expected.toNat with
  | error st => exact ⟨responseBytes st [], fun s => by simp only [exec, execRleDecompress, hout]; rfl⟩
  | ok out => exact ⟨responseBytes .ok [.bytes out], fun s => by simp only [exec, execRleDecompress, hout]; rfl⟩

theorem answersByOperands_xorApply (key : Byte) (input : ByteString) : AnswersByOperands (.xorApply key input) :=
  ⟨_, fun _ => rfl⟩

theorem answersByOperands_chkCompute (divisor : Half) (input : ByteString) : AnswersByOperands (.chkCompute divisor input) := by
  by_cases hlegal : legalDivisor divisor = true
  · exact ⟨_, fun s => if_pos hlegal⟩
  · exact ⟨_, fun s => if_neg hlegal⟩

theorem answersByOperands_chkVerify (divisor : Half) (expected : Byte) (input : ByteString) :
    AnswersByOperands (.chkVerify divisor expected input) := by
  by_cases hlegal : legalDivisor divisor = true
  · exact ⟨_, fun s => if_pos hlegal⟩
  · exact ⟨_, fun s => if_neg hlegal⟩

theorem exec_cfgRead_answers (reg : Byte) (s : State) : ∃ b, exec (.cfgRead reg) s = .next { s with responses := s.answered b } := by
  cases hr : Reg.ofIndex reg with
  | none => exact ⟨responseBytes .badOperand [], by simp only [exec, execCfgRead, hr]; rfl⟩
  | some r => exact ⟨_, exec_cfgRead_of_index hr s⟩

/-- What the operands decide holds in each state. -/
theorem AnswersByOperands.exec_eq {i : Instr} (h : AnswersByOperands i) (s : State) :
    ∃ b, exec i s = .next { s with responses := s.answered b } := by
  obtain ⟨b, hb⟩ := h
  exact ⟨b, hb s⟩

/-- Settles O13: CFG_READ and SB_READ_POS answer from the state they leave alone, a codec command from its operands. -/
theorem cfgReadSbReadPosAndCodecsHaveNoEffect : Obligations.CfgReadSbReadPosAndCodecsHaveNoEffect := by
  intro i hi
  have of_operands (h : AnswersByOperands i) :
      (∀ s : State, ∃ b, exec i s = .next { s with responses := s.answered b }) ∧
      (i.opcode ≠ .cfgRead → i.opcode ≠ .sbReadPos → AnswersByOperands i) := ⟨h.exec_eq, fun _ _ => h⟩
  cases i with
  | cfgRead reg => exact ⟨exec_cfgRead_answers reg, fun h => absurd rfl h⟩
  | sbReadPos => exact ⟨fun s => ⟨_, rfl⟩, fun _ h => absurd rfl h⟩
  | rleCompress esc input => exact of_operands (answersByOperands_rleCompress esc input)
  | rleDecompress esc expected input => exact of_operands (answersByOperands_rleDecompress esc expected input)
  | xorApply key input => exact of_operands (answersByOperands_xorApply key input)
  | chkCompute divisor input => exact of_operands (answersByOperands_chkCompute divisor input)
  | chkVerify divisor expected input => exact of_operands (answersByOperands_chkVerify divisor expected input)
  | cfgWrite | reset | rxPush | rxClose | txEncode | sbReset | sbAppend | sbRead | sbRemoveChunk => simp [Instr.opcode] at hi

end Sys2Proof.Machine
end

section
/-! Family 30_encoding.md: the operand readers as a format, the decoder by its outcomes, the round trip of a transaction, the checks of
a port, and the status a command answers. -/

namespace Sys2Proof.Machine

/-! ### What is left behind an operand (30_encoding.md R71)

An operand that runs past the end is not read; otherwise the transaction without the operand's bytes is left. -/

theorem takeU8_rest (t : ByteString) : (takeU8 t).map Prod.snd = if t.length < 1 then none else some (t.drop 1) := by
  cases t <;> simp [takeU8]

theorem takeU16_rest (t : ByteString) : (takeU16 t).map Prod.snd = if t.length < 2 then none else some (t.drop 2) :=
  apply_ite (Option.map Prod.snd) ..

theorem takeU32_rest (t : ByteString) : (takeU32 t).map Prod.snd = if t.length < 4 then none else some (t.drop 4) :=
  apply_ite (Option.map Prod.snd) ..

theorem takeBytes_rest (t : ByteString) : (takeBytes t).map Prod.snd =
    if t.length < 4 + (rd32 t 0).toNat then none else some (t.drop (4 + (rd32 t 0).toNat)) := by
  by_cases hlength : t.length < 4
  · rw [if_pos (by omega)]
    simp [takeBytes, takeU32, hlength]
  · have hcontent : t.length - 4 < (rd32 t 0).toNat ↔ t.length < 4 + (rd32 t 0).toNat := by omega
    simp [takeBytes, takeU32, hlength, hcontent, apply_ite (Option.map Prod.snd)]

/-- A byte string that is read is one that a transaction can carry. -/
theorem fits_of_takeBytes {t b r : ByteString} (h : takeBytes t = some (b, r)) : ByteString.fits b = true :=
  decide_eq_true (takeBytes_eq_some h).2

theorem takeU32_le32_end (v : Word) : takeU32 (le32 v) = some (v, []) := by
  simpa using takeU32_le32 v []

theorem takeBytes_encodeBytes_end {b : ByteString} (h : ByteString.fits b = true) : takeBytes (encodeBytes b) = some (b, []) := by
  simpa using takeBytes_encodeBytes [] (Laws.EncodedLength.fits_lt h)

/-! ### The format of an operand reader -/

/-- A reader that takes operands of these kinds, in this order and to the end of the transaction, and answers with a well-formed command
whose operand bytes are the ones read: those read so far, and then the ones this reader takes. -/
inductive Reads : List OperandKind → ByteString → (ByteString → Option Instr) → Prop
  | done {i : Instr} : i.wellFormed = true → Reads [] (encodeOperands i) (takeEnd i)
  | u8 {ks : List OperandKind} {sofar : ByteString} {next : Byte × ByteString → Option Instr} :
      (∀ b, Reads ks (sofar ++ [b]) fun r => next (b, r)) → Reads (.u8 :: ks) sofar fun t => (takeU8 t).bind next
  | u16 {ks : List OperandKind} {sofar : ByteString} {next : Half × ByteString → Option Instr} :
      (∀ v, Reads ks (sofar ++ le16 v) fun r => next (v, r)) → Reads (.u16 :: ks) sofar fun t => (takeU16 t).bind next
  | u32 {ks : List OperandKind} {sofar : ByteString} {next : Word × ByteString → Option Instr} :
      (∀ v, Reads ks (sofar ++ le32 v) fun r => next (v, r)) → Reads (.u32 :: ks) sofar fun t => (takeU32 t).bind next
  | bytes {ks : List OperandKind} {sofar : ByteString} {next : ByteString × ByteString → Option Instr} :
      (∀ b, ByteString.fits b = true → Reads ks (sofar ++ encodeBytes b) fun r => next (b, r)) →
      Reads (.bytes :: ks) sofar fun t => (takeBytes t).bind next

/-- The decoder reads the operands of each opcode in the format the table gives it (30_encoding.md R79). -/
theorem parseOperands_reads (op : Opcode) : Reads op.operands [] (parseOperands op) := by
  cases op with
  | cfgWrite => exact .u8 fun reg => .u32 fun value => .done (i := .cfgWrite reg value) rfl
  | cfgRead => exact .u8 fun reg => .done (i := .cfgRead reg) rfl
  | reset => exact .done (i := .reset) rfl
  | rxPush => exact .bytes fun data h => .done (i := .rxPush data) h
  | rxClose => exact .done (i := .rxClose) rfl
  | txEncode => exact .u8 fun a => .u8 fun b => .u8 fun c => .bytes fun payload h => .done (i := .txEncode a b c payload) h
  | rleCompress => exact .u8 fun esc => .bytes fun input h => .done (i := .rleCompress esc input) h
  | rleDecompress =>
    exact .u8 fun esc => .u32 fun expected => .bytes fun input h => .done (i := .rleDecompress esc expected input) h
  | xorApply => exact .u8 fun key => .bytes fun input h => .done (i := .xorApply key input) h
  | chkCompute => exact .u16 fun divisor => .bytes fun input h => .done (i := .chkCompute divisor input) h
  | chkVerify =>
    exact .u16 fun divisor => .u8 fun expected => .bytes fun input h => .done (i := .chkVerify divisor expected input) h
  | sbReset => exact .done (i := .sbReset) rfl
  | sbAppend => exact .bytes fun data h => .done (i := .sbAppend data) h
  | sbRead => exact .u32 fun maxLength => .done (i := .sbRead maxLength) rfl
  | sbRemoveChunk => exact .u32 fun offset => .done (i := .sbRemoveChunk offset) rfl
  | sbReadPos => exact .done (i := .sbReadPos) rfl

/-- Where the rest of a transaction is read iff its length is `width`, the operand of `w` bytes before it adds `w`. -/
theorem exists_bind_iff_length {α : Type} {read : Option (α × ByteString)} {next : α × ByteString → Option Instr} {t : ByteString}
    {w : Nat} {width : ByteString → Nat} (hread : read.map Prod.snd = if t.length < w then none else some (t.drop w))
    (hnext : ∀ x r, read = some (x, r) → ((∃ i, next (x, r) = some i) ↔ r.length = width r)) :
    (∃ i, read.bind next = some i) ↔ t.length = w + width (t.drop w) := by
  by_cases hshort : t.length < w
  · have hnone : read = none := by simpa [hshort] using hread
    simp only [hnone, Option.bind_none, reduceCtorEq, exists_false, false_iff]
    omega
  · obtain ⟨x, hx⟩ : ∃ x, read = some (x, t.drop w) := by simpa [hshort] using hread
    rw [hx, Option.bind_some, hnext x _ hx, List.length_drop]
    omega

/-- A reader answers exactly where the length is the width of its operands (30_encoding.md R71). -/
theorem Reads.exists_iff {ks : List OperandKind} {sofar : ByteString} {parse : ByteString → Option Instr}
    (h : Reads ks sofar parse) (t : ByteString) : (∃ i, parse t = some i) ↔ t.length = operandsWidth ks t := by
  induction h generalizing t with
  | done => cases t <;> simp [takeEnd, operandsWidth]
  | u8 _ ih => exact exists_bind_iff_length (takeU8_rest t) fun b r _ => ih b r
  | u16 _ ih => exact exists_bind_iff_length (takeU16_rest t) fun v r _ => ih v r
  | u32 _ ih => exact exists_bind_iff_length (takeU32_rest t) fun v r _ => ih v r
  | bytes _ ih => exact exists_bind_iff_length (takeBytes_rest t) fun b r hread => ih b (fits_of_takeBytes hread) r

/-- What a reader answers spells out what was read, and no byte is ignored. -/
theorem Reads.encodeOperands_eq {ks : List OperandKind} {sofar : ByteString} {parse : ByteString → Option Instr}
    (h : Reads ks sofar parse) {t : ByteString} {i : Instr} (hi : parse t = some i) :
    encodeOperands i = sofar ++ t ∧ i.wellFormed = true := by
  induction h generalizing t with
  | done hw =>
    obtain ⟨rfl, rfl⟩ := takeEnd_eq_some hi
    exact ⟨(List.append_nil _).symm, hw⟩
  | u8 _ ih =>
    obtain ⟨⟨b, r⟩, hread, hi⟩ := Option.bind_eq_some_iff.1 hi
    simpa [takeU8_eq_some hread] using ih b hi
  | u16 _ ih =>
    obtain ⟨⟨v, r⟩, hread, hi⟩ := Option.bind_eq_some_iff.1 hi
    simpa [takeU16_eq_some hread] using ih v hi
  | u32 _ ih =>
    obtain ⟨⟨v, r⟩, hread, hi⟩ := Option.bind_eq_some_iff.1 hi
    simpa [takeU32_eq_some hread] using ih v hi
  | bytes _ ih =>
    obtain ⟨⟨b, r⟩, hread, hi⟩ := Option.bind_eq_some_iff.1 hi
    simpa [(takeBytes_eq_some hread).1] using ih b (fits_of_takeBytes hread) hi

/-- The operand bytes of a well-formed command are read back as that command. -/
theorem parseOperands_encodeOperands {i : Instr} (h : i.wellFormed = true) :
    parseOperands i.opcode (encodeOperands i) = some i := by
  cases i with
  | reset | rxClose | sbReset | sbReadPos | cfgRead => rfl
  | cfgWrite | sbRead | sbRemoveChunk => simp [parseOperands, encodeOperands, Instr.opcode, takeU32_le32_end]
  | rxPush | txEncode | rleCompress | rleDecompress | xorApply | chkCompute | chkVerify | sbAppend =>
    simp [parseOperands, encodeOperands, Instr.opcode, takeBytes_encodeBytes_end h]

/-! ### The decoder by its outcomes (30_encoding.md R74) -/

theorem Opcode.code_of_ofByte {b : Byte} {op : Opcode} (h : Opcode.ofByte b = some op) : op.code = b := by
  simpa using List.find?_some h

theorem Opcode.ofByte_eq_none_iff {b : Byte} : Opcode.ofByte b = none ↔ ∀ op : Opcode, op.code ≠ b := by
  constructor
  · rintro h op rfl
    simp [Laws.EncodedLength.ofByte_code] at h
  · intro h
    cases hb : Opcode.ofByte b with
    | none => rfl
    | some op => exact absurd (Opcode.code_of_ofByte hb) (h op)

theorem decode_of_no_opcode {t : ByteString} (h : ∀ (op : Opcode) (rest : ByteString), t ≠ op.code :: rest) (p : Port) :
    decode p t = .error .illegalOpcode := by
  cases t with
  | nil => rfl
  | cons b rest =>
    have hb : Opcode.ofByte b = none := Opcode.ofByte_eq_none_iff.2 fun op hop => h op rest (by rw [hop])
    simp [decode, hb]

theorem decode_of_not_accepted {p : Port} {op : Opcode} (h : op.acceptedOn p = false) (rest : ByteString) :
    decode p (op.code :: rest) = .error .illegalOpcode := by
  simp [decode, Laws.EncodedLength.ofByte_code, h]

theorem decode_of_parse_none {p : Port} {op : Opcode} {rest : ByteString} (h : op.acceptedOn p = true)
    (hparse : parseOperands op rest = none) : decode p (op.code :: rest) = .error .malformed := by
  simp [decode, Laws.EncodedLength.ofByte_code, h, hparse]

theorem decode_of_parse_some {p : Port} {op : Opcode} {rest : ByteString} {i : Instr} (h : op.acceptedOn p = true)
    (hparse : parseOperands op rest = some i) : decode p (op.code :: rest) = .ok i := by
  simp [decode, Laws.EncodedLength.ofByte_code, h, hparse]

/-- The operands of an opcode are read only behind that opcode in the command's own transaction. -/
theorem encode_of_parseOperands {op : Opcode} {rest : ByteString} {i : Instr} (h : parseOperands op rest = some i) :
    encode i = op.code :: rest ∧ i.wellFormed = true := by
  obtain ⟨henc, hw⟩ := (parseOperands_reads op).encodeOperands_eq h
  exact ⟨by rw [encode, parseOperands_opcode h, henc, List.nil_append], hw⟩

/-- What decodes is an opcode with its operands behind it. -/
theorem exists_parse_of_decode_ok {p : Port} {t : ByteString} {i : Instr} (h : decode p t = .ok i) :
    ∃ (op : Opcode) (rest : ByteString), t = op.code :: rest ∧ parseOperands op rest = some i := by
  by_cases hop : ∃ (op : Opcode) (rest : ByteString), t = op.code :: rest
  · obtain ⟨op, rest, rfl⟩ := hop
    cases haccepts : op.acceptedOn p with
    | false => cases (decode_of_not_accepted haccepts rest).symm.trans h
    | true =>
      cases hparse : parseOperands op rest with
      | none => cases (decode_of_parse_none haccepts hparse).symm.trans h
      | some j =>
        cases (decode_of_parse_some haccepts hparse).symm.trans h
        exact ⟨op, rest, rfl, hparse⟩
  · cases (decode_of_no_opcode (fun op rest ht => hop ⟨op, rest, ht⟩) p).symm.trans h

/-! ### The round trip of a transaction -/

/-- Settles O2: the port accepts the opcode, and the operands are read back. -/
theorem decodeOfEncodeIsIdentity : Obligations.DecodeOfEncodeIsIdentity := by
  intro p i hw haccepts
  exact decode_of_parse_some haccepts (parseOperands_encodeOperands hw)

/-- Settles O3: the readers answer with what they read (`Reads`), and the port accepts it (`acceptedOn_of_decode_ok`). -/
theorem decodedCommandHasThatEncoding : Obligations.DecodedCommandHasThatEncoding := by
  intro p t i h
  obtain ⟨op, rest, rfl, hparse⟩ := exists_parse_of_decode_ok h
  obtain ⟨henc, hw⟩ := encode_of_parseOperands hparse
  exact ⟨henc, hw, acceptedOn_of_decode_ok h⟩

/-! ### The checks of a port -/

theorem performTransaction_of_illegalOpcode {p : Port} {t : ByteString} (h : decode p t = .error .illegalOpcode) (s : State) :
    performTransaction p t s = .next { s with responses := s.answered [0x01] } :=
  performTransaction_of_decode_error h s

theorem performTransaction_of_malformed {p : Port} {t : ByteString} (h : decode p t = .error .malformed) (s : State) :
    performTransaction p t s = .next { s with responses := s.answered [0x02] } :=
  performTransaction_of_decode_error h s

/-- Settles O4, by the outcomes of the decoder; the operands are read where the length matches (`Reads.exists_iff`). -/
theorem transactionChecksRunInOrder : Obligations.TransactionChecksRunInOrder := by
  intro p t s
  refine ⟨fun h => performTransaction_of_illegalOpcode (decode_of_no_opcode h p) s, ?_⟩
  rintro op rest rfl
  have hreads : (∃ i, parseOperands op rest = some i) ↔ rest.length = operandsWidth op.operands rest :=
    (parseOperands_reads op).exists_iff rest
  refine ⟨fun hrefuses => ?_, fun haccepts hlen => ?_, fun haccepts hlen => ?_⟩
  · exact performTransaction_of_illegalOpcode (decode_of_not_accepted hrefuses rest) s
  · have hnone : parseOperands op rest = none := by
      refine Option.eq_none_iff_forall_ne_some.2 fun i hi => hlen ?_
      rw [List.length_cons, hreads.1 ⟨i, hi⟩, Nat.add_comm]
    exact performTransaction_of_malformed (decode_of_parse_none haccepts hnone) s
  · obtain ⟨i, hi⟩ := hreads.2 (by rw [List.length_cons] at hlen; omega)
    exact ⟨i, parseOperands_opcode hi, (encode_of_parseOperands hi).1,
      performTransaction_of_decode_ok (decode_of_parse_some haccepts hi) s⟩

/-! ### The status of a command (30_encoding.md R72, R73) -/

theorem State.answered_inj {s : State} {x y : ByteString} : s.answered x = s.answered y ↔ x = y := by
  simp [State.answered]

/-- A command is refused with a status and nothing else happens, or it answers OK with its results. -/
theorem CommandEffect.raised_or_ok {s t : State} {i : Instr} (h : CommandEffect s i t) :
    (∃ st, t = s.raise st) ∨ ∃ results, t.responses = s.answered (responseBytes .ok results) := by
  cases h with
  | refuse _ st => exact .inl ⟨st, rfl⟩
  | push => exact .inr ⟨[], by rw [drain_frame]; rfl⟩
  | _ => exact .inr ⟨_, rfl⟩

/-- Settles O10, from the two ways a command ends (`CommandEffect.raised_or_ok`). -/
theorem everyCommandAnswersOnce : Obligations.EveryCommandAnswersOnce := by
  intro i s
  obtain ⟨t, hexec, he⟩ := exec_effect i s
  rcases he.raised_or_ok with ⟨st, rfl⟩ | ⟨results, hok⟩
  · exact ⟨_, st, [], hexec, rfl, fun _ => rfl⟩
  · exact ⟨t, .ok, results, hexec, hok, fun h => absurd rfl h⟩

/-- Settles O11: a status other than OK comes from `State.raise` alone. -/
theorem failedCommandChangesNothing : Obligations.FailedCommandChangesNothing := by
  intro i s t c rest hexec hresp hc
  rcases (CommandEffect.of_exec hexec).raised_or_ok with ⟨st, rfl⟩ | ⟨results, hok⟩
  · obtain ⟨-, hrest⟩ := List.cons.inj (State.answered_inj.1 hresp)
    exact ⟨rfl, hrest.symm⟩
  · obtain ⟨hcode, -⟩ := List.cons.inj (State.answered_inj.1 (hok.symm.trans hresp))
    exact absurd hcode.symm hc

/-! ### The worked encodings and the illegal opcodes (30_encoding.md R80, R87) -/

theorem decode_short_sbRead (p : Port) : decode p [0x52, 0x08, 0x00, 0x00] = .error .malformed := by
  cases p <;> decide

/-- Settles O1: the assembler and the decoder evaluated on the lines of R87. -/
theorem specExampleEncodings : Obligations.SpecExampleEncodings := by
  refine ⟨by decide, by decide, by decide, by decide, by decide, by decide, by decide, by decide, fun s hrd => ?_, fun p s => ?_⟩
  · have hread : exec .sbReadPos s = .next (s.ret [.u32 (saturate32 s.sb.rd)]) := rfl
    rw [hread, hrd]
    rfl
  · exact performTransaction_of_malformed (decode_short_sbRead p) s

/-- The byte values between the opcodes of the table (30_encoding.md R80). -/
theorem Opcode.ofByte_eq_none_iff_ranges (b : Byte) : Opcode.ofByte b = none ↔
    b = 0x00 ∨ (0x03 ≤ b ∧ b ≤ 0x0E) ∨ (0x12 ≤ b ∧ b ≤ 0x1F) ∨ (0x21 ≤ b ∧ b ≤ 0x2F) ∨ (0x32 ≤ b ∧ b ≤ 0x37) ∨
    (0x39 ≤ b ∧ b ≤ 0x3F) ∨ (0x42 ≤ b ∧ b ≤ 0x4F) ∨ 0x55 ≤ b := by
  simp only [Opcode.ofByte, List.find?_eq_none, Opcode.all, List.forall_mem_cons, List.not_mem_nil, false_imp_iff, implies_true, and_true,
    Opcode.code, beq_iff_eq]
  bv_omega

/-- Settles O5: a byte in these ranges is the code of no opcode, so the transaction fails the first check. -/
theorem illegalOpcodeChangesNothing : Obligations.IllegalOpcodeChangesNothing := by
  intro b
  refine ⟨Opcode.ofByte_eq_none_iff_ranges b, fun hb p rest s => performTransaction_of_illegalOpcode (decode_of_no_opcode ?_ p) s⟩
  intro op rest' h
  exact Opcode.ofByte_eq_none_iff.1 hb op (List.cons.inj h).1.symm

end Sys2Proof.Machine
end

section
/-! Family 41_frame_receiver.md: the stages of the drain loop by what is buffered, the drain by its first iteration, the outcome of
one frame, and what a push does; then frames delivered in pieces. -/

namespace Sys2Proof.Machine

/-! ### One iteration of the drain loop, by what is buffered (41_frame_receiver.md R102 to R104) -/

section stage
variable {s : State}

/-- A partial header is not inspected. -/
theorem drainStage_of_partialHeader (hst : s.rx.state = .awaitingHeader) (hl : s.rx.acc.length < hdrLen) :
    drainStage s = (.wait, s) := by
  simp [drainStage, hst, headerStage, hl]

theorem drainStage_of_unsigned (hst : s.rx.state = .awaitingHeader) (hl : hdrLen ≤ s.rx.acc.length)
    (hs : ¬ (parseHeader s.rx.acc).signed = true) : drainStage s = (.wait, (s.setAcc []).drop .invalidSignature) := by
  simp [drainStage, hst, headerStage, Nat.not_lt.2 hl, parseHeader_take, hs]

theorem drainStage_of_notAddressed (hst : s.rx.state = .awaitingHeader) (hl : hdrLen ≤ s.rx.acc.length)
    (hs : (parseHeader s.rx.acc).signed = true) (ha : ¬ (parseHeader s.rx.acc).addressedTo s.regs.stationId = true) :
    drainStage s = (.wait, (s.setAcc []).drop .notAddressed) := by
  simp [drainStage, hst, headerStage, Nat.not_lt.2 hl, parseHeader_take, hs, ha]

theorem drainStage_of_acceptedHeader (hst : s.rx.state = .awaitingHeader) (hl : hdrLen ≤ s.rx.acc.length)
    (hs : (parseHeader s.rx.acc).signed = true) (ha : (parseHeader s.rx.acc).addressedTo s.regs.stationId = true) :
    drainStage s = (.progress, s.setRx
      { state := .awaitingPayload, acc := s.rx.acc.drop hdrLen, hdr := some (parseHeader s.rx.acc) }) := by
  simp [drainStage, hst, headerStage, Nat.not_lt.2 hl, parseHeader_take, hs, ha]

theorem drainStage_of_partialPayload {h : Header} (hst : s.rx.state = .awaitingPayload) (hh : s.rx.hdr = some h)
    (hl : s.rx.acc.length < h.dataLength.toNat) : drainStage s = (.wait, s) := by
  simp [drainStage, hst, payloadStage, hh, hl]

theorem drainStage_of_noHeader (hst : s.rx.state = .awaitingPayload) (hh : s.rx.hdr = none) : drainStage s = (.wait, s) := by
  simp [drainStage, hst, payloadStage, hh]

theorem drainStage_of_payload {h : Header} (hst : s.rx.state = .awaitingPayload) (hh : s.rx.hdr = some h)
    (hl : h.dataLength.toNat ≤ s.rx.acc.length) :
    drainStage s = (.progress, processPayload (s.rx.acc.take h.dataLength.toNat) h
      (s.setRx { state := .awaitingHeader, acc := s.rx.acc.drop h.dataLength.toNat, hdr := none })) := by
  simp [drainStage, hst, payloadStage, hh, Nat.not_lt.2 hl]

end stage

/-- What an iteration can do, in any state: wait with nothing changed, discard the buffer for a rejected header, consume an accepted
header, or consume a payload. -/
theorem drainStage_cases (s : State) :
    drainStage s = (.wait, s) ∨
    (s.rx.state = .awaitingHeader ∧ hdrLen ≤ s.rx.acc.length ∧
      ¬ ((parseHeader s.rx.acc).signed = true ∧ (parseHeader s.rx.acc).addressedTo s.regs.stationId = true) ∧
      ∃ r, drainStage s = (.wait, (s.setAcc []).drop r)) ∨
    (s.rx.state = .awaitingHeader ∧ hdrLen ≤ s.rx.acc.length ∧ (parseHeader s.rx.acc).signed = true ∧
      (parseHeader s.rx.acc).addressedTo s.regs.stationId = true ∧ drainStage s = (.progress, s.setRx
      { state := .awaitingPayload, acc := s.rx.acc.drop hdrLen, hdr := some (parseHeader s.rx.acc) })) ∨
    (∃ h, s.rx.state = .awaitingPayload ∧ s.rx.hdr = some h ∧ h.dataLength.toNat ≤ s.rx.acc.length ∧
      drainStage s = (.progress, processPayload (s.rx.acc.take h.dataLength.toNat) h
        (s.setRx { state := .awaitingHeader, acc := s.rx.acc.drop h.dataLength.toNat, hdr := none }))) := by
  cases hst : s.rx.state with
  | awaitingHeader =>
    rcases Nat.lt_or_ge s.rx.acc.length hdrLen with hl | hl
    · exact .inl (drainStage_of_partialHeader hst hl)
    · by_cases hs : (parseHeader s.rx.acc).signed = true
      · by_cases ha : (parseHeader s.rx.acc).addressedTo s.regs.stationId = true
        · exact .inr (.inr (.inl ⟨rfl, hl, hs, ha, drainStage_of_acceptedHeader hst hl hs ha⟩))
        · exact .inr (.inl ⟨rfl, hl, fun h => ha h.2, _, drainStage_of_notAddressed hst hl hs ha⟩)
      · exact .inr (.inl ⟨rfl, hl, fun h => hs h.1, _, drainStage_of_unsigned hst hl hs⟩)
  | awaitingPayload =>
    cases hh : s.rx.hdr with
    | none => exact .inl (drainStage_of_noHeader hst hh)
    | some h =>
      rcases Nat.lt_or_ge s.rx.acc.length h.dataLength.toNat with hl | hl
      · exact .inl (drainStage_of_partialPayload hst hh hl)
      · exact .inr (.inr (.inr ⟨h, rfl, rfl, hl, drainStage_of_payload hst hh hl⟩))

/-! ### The drain ends within its bound (41_frame_receiver.md R101)

Unlike `drainLoop_drained`, this is about every state, consistent or not (R27). -/

theorem drainRank_lt_of_progress {s s' : State} (h : drainStage s = (.progress, s')) : drainRank s' < drainRank s := by
  rcases drainStage_cases s with hw | ⟨_, _, _, _, hw⟩ | ⟨hst, hl, _, _, hp⟩ | ⟨hd, hst, _, _, hp⟩
  · cases hw.symm.trans h
  · cases hw.symm.trans h
  · cases hp.symm.trans h
    rw [drainRank_of_awaitingHeader hst, drainRank_of_awaitingPayload rfl, State.setRx_rx, List.length_drop]
    unfold hdrLen at *
    omega
  · cases hp.symm.trans h
    rw [drainRank_of_awaitingPayload hst, drainRank_of_awaitingHeader (by simp), processPayload_rx, State.setRx_rx,
      List.length_drop]
    omega

/-- The iteration that ends the loop leaves a state in which neither stage can progress. -/
theorem drainStage_of_wait {s s' : State} (h : drainStage s = (.wait, s')) : drainStage s' = (.wait, s') := by
  rcases drainStage_cases s with hw | ⟨hst, _, _, r, hw⟩ | ⟨_, _, _, _, hp⟩ | ⟨_, _, _, _, hp⟩
  · cases hw.symm.trans h
    exact h
  · cases hw.symm.trans h
    exact drainStage_of_partialHeader (by simpa using hst) (by simp [hdrLen])
  · cases hp.symm.trans h
  · cases hp.symm.trans h

/-- Induction along the iterations of the drain loop. -/
theorem drain_induction {P : State → Prop} (step : ∀ s, (∀ s', drainStage s = (.progress, s') → P s') → P s) (s : State) :
    P s :=
  (measure drainRank).wf.induction s fun s ih => step s fun s' hs' => ih s' (drainRank_lt_of_progress hs')

theorem drainLoop_succ_of_rank_le {n : Nat} {s : State} (hn : drainRank s ≤ n) : drainLoop (n + 1) s = drainLoop n s := by
  induction n generalizing s with
  | zero =>
    unfold drainRank at hn
    split at hn <;> omega
  | succ n ih =>
    rcases h : drainStage s with ⟨_ | _, s'⟩
    · rw [drainLoop_of_wait _ h, drainLoop_of_wait _ h]
    · have hlt := drainRank_lt_of_progress h
      rw [drainLoop_of_progress _ h, drainLoop_of_progress _ h, ih (by omega)]

/-- No number of iterations from the rank on gives another state. -/
theorem drainLoop_of_rank_le {n : Nat} {s : State} (hn : drainRank s ≤ n) : drainLoop n s = drainLoop (drainRank s) s := by
  induction n, hn using Nat.le_induction with
  | base => rfl
  | succ n hn ih => rw [drainLoop_succ_of_rank_le hn, ih]

theorem drainLoop_eq_drain {n : Nat} {s : State} (hn : drainRank s ≤ n) : drainLoop n s = drain s := by
  rw [drain, drainLoop_of_rank_le hn, drainLoop_of_rank_le (drainRank_le_drainBound s)]

/-- The drain by its first iteration. -/
theorem drain_of_wait {s s' : State} (h : drainStage s = (.wait, s')) : drain s = s' :=
  drainLoop_of_wait _ h

theorem drain_of_progress {s s' : State} (h : drainStage s = (.progress, s')) : drain s = drain s' := by
  have hlt := drainRank_lt_of_progress h
  calc drain s = drainLoop (drainRank s + 1) s := (drainLoop_eq_drain (by omega)).symm
    _ = drainLoop (drainRank s) s' := drainLoop_of_progress _ h
    _ = drain s' := drainLoop_eq_drain hlt.le

theorem drain_settled (s : State) : drainStage (drain s) = (.wait, drain s) := by
  induction s using drain_induction with
  | step s ih =>
    rcases h : drainStage s with ⟨_ | _, s'⟩
    · rw [drain_of_wait h]
      exact drainStage_of_wait h
    · rw [drain_of_progress h]
      exact ih s' h

/-- Settles O28: by induction on the rank of the receiver, for every state. -/
theorem drainEndsWithinItsBound : Obligations.DrainEndsWithinItsBound := by
  intro s
  exact ⟨fun n hn => drainLoop_eq_drain ((drainRank_le_drainBound s).trans hn), drain_settled s⟩

/-! ### What a push does (41_frame_receiver.md R100, R110) -/

/-- Pushed bytes go behind those buffered (41_frame_receiver.md R100). -/
def State.buffer (s : State) (data : ByteString) : State := s.setAcc (s.rx.acc ++ data)

theorem State.buffer_eq_setRx (s : State) (data : ByteString) :
    s.buffer data = s.setRx { s.rx with acc := s.rx.acc ++ data } := rfl

@[simp] theorem State.buffer_rx (s : State) (data : ByteString) :
    (s.buffer data).rx = { s.rx with acc := s.rx.acc ++ data } := rfl

@[simp] theorem State.buffer_nil (s : State) : s.buffer [] = s := by simp [State.buffer, State.setAcc]

theorem State.buffer_append (s : State) (a b : ByteString) : (s.buffer a).buffer b = s.buffer (a ++ b) := by
  simp [State.buffer, State.setAcc]

theorem exec_rxPush_of_admits {s : State} {data : ByteString}
    (h : admits s.params.accCap (s.rx.acc.length + data.length) = true) :
    exec (.rxPush data) s = .next ((drain (s.buffer data)).ret []) := by
  simp [exec, execRxPush, h, State.buffer]

theorem exec_rxPush_of_overflow {s : State} {data : ByteString}
    (h : admits s.params.accCap (s.rx.acc.length + data.length) = false) :
    exec (.rxPush data) s = .next (((s.setRx Rx.reset).drop .accOverflow).ret []) := by
  simp [exec, execRxPush, h, Rx.reset]

/-- The answer to a push, behind the responses given before it. -/
theorem ret_drain_buffer (s : State) (data : ByteString) :
    (drain (s.buffer data)).ret [] = { drain (s.buffer data) with responses := s.answered [0x00] } := by
  rw [drain_frame]
  rfl

/-- A push on which the first iteration waits. -/
theorem exec_rxPush_of_wait {s t : State} {data : ByteString}
    (h : admits s.params.accCap (s.rx.acc.length + data.length) = true) (hw : drainStage (s.buffer data) = (.wait, t)) :
    exec (.rxPush data) s = .next (t.ret []) := by
  rw [exec_rxPush_of_admits h, drain_of_wait hw]

/-- A push touches the receiver, the events and the queue, and is answered OK. -/
theorem exec_rxPush_frame {s t : State} {data : ByteString} (h : exec (.rxPush data) s = .next t) :
    t = { s with rx := t.rx, ev := t.ev, mq := t.mq, responses := s.answered [0x00] } := by
  cases ha : admits s.params.accCap (s.rx.acc.length + data.length) with
  | true =>
    cases (exec_rxPush_of_admits ha).symm.trans h
    rw [drain_frame]
    rfl
  | false =>
    cases (exec_rxPush_of_overflow ha).symm.trans h
    rfl

/-- Settles O26, from the frame of a push and what every command keeps of `ev` and `mq`. -/
theorem rxPushAlwaysCompletesOk : Obligations.RxPushAlwaysCompletesOk := by
  intro s data
  obtain ⟨t, hexec, he⟩ := exec_rxPush_effect data s
  obtain ⟨new, hmq, _⟩ := he.mq_grows
  have hgrows : s.ev <+: t.ev ∧ s.mq <+: t.mq := ⟨he.ev_grows, new, hmq.symm⟩
  refine ⟨t, hexec, ?_⟩
  rw [exec_rxPush_frame hexec]
  exact ⟨rfl, hgrows.1, hgrows.2, rfl, rfl, rfl, rfl, rfl, rfl, rfl, rfl, rfl, rfl⟩

/-- Settles O27: the push is not admitted, so the receiver is cleared and nothing is drained. -/
theorem overflowingPushDiscards : Obligations.OverflowingPushDiscards := by
  intro s data c hcap hlt
  exact exec_rxPush_of_overflow (admits_eq_false.2 ⟨c, hcap, hlt⟩)

/-- Settles O36: the meaning of RX_CLOSE, field by field. -/
theorem rxCloseClearsTheReceiver : Obligations.RxCloseClearsTheReceiver := by
  intro s
  rfl

/-- Settles O29: the first iteration waits, so that the pushed bytes are buffered and nothing else happens. -/
theorem incompleteUnitWaits : Obligations.IncompleteUnitWaits := by
  intro s data ha
  refine ⟨fun hst hl => ?_, fun h hst hh hl => ?_⟩
  · exact exec_rxPush_of_wait ha (drainStage_of_partialHeader hst (by simpa [hdrLen] using hl))
  · exact exec_rxPush_of_wait ha (drainStage_of_partialPayload hst hh (by simpa using hl))

/-! ### A rejected header (41_frame_receiver.md R103, R111) -/

section rejected
variable {s : State} {data : ByteString} (hst : s.rx.state = .awaitingHeader) (hh : s.rx.hdr = none)
  (ha : admits s.params.accCap (s.rx.acc.length + data.length) = true) (hl : 20 ≤ s.rx.acc.length + data.length)
include hst hh ha

/-- Where the first iteration discards the buffer, the receiver is idle after the push and one event has been raised. -/
theorem exec_rxPush_of_discard {r : DropReason}
    (hw : drainStage (s.buffer data) = (.wait, ((s.buffer data).setAcc []).drop r)) :
    exec (.rxPush data) s = .next { s with
      rx := { state := .awaitingHeader, acc := [], hdr := none }, ev := s.ev ++ [.rxDrop r], responses := s.answered [0x00] } := by
  rw [exec_rxPush_of_wait ha hw, ← hst, ← hh]
  rfl

include hl

/-- A header that fails the signature test discards the buffer. -/
theorem exec_rxPush_of_unsigned (hs : ¬ (parseHeader (s.rx.acc ++ data)).signed = true) :
    exec (.rxPush data) s = .next { s with
      rx := { state := .awaitingHeader, acc := [], hdr := none }
      ev := s.ev ++ [.rxDrop .invalidSignature]
      responses := s.answered [0x00] } :=
  exec_rxPush_of_discard hst hh ha (drainStage_of_unsigned hst (by simpa [hdrLen] using hl) hs)

/-- A signed header for another station and of no broadcast class discards the buffer. -/
theorem exec_rxPush_of_notAddressed (hs : (parseHeader (s.rx.acc ++ data)).signed = true)
    (hn : ¬ (parseHeader (s.rx.acc ++ data)).addressedTo s.regs.stationId = true) :
    exec (.rxPush data) s = .next { s with
      rx := { state := .awaitingHeader, acc := [], hdr := none }
      ev := s.ev ++ [.rxDrop .notAddressed]
      responses := s.answered [0x00] } :=
  exec_rxPush_of_discard hst hh ha (drainStage_of_notAddressed hst (by simpa [hdrLen] using hl) hs hn)

end rejected

/-- Settles O30: the first iteration discards the buffer, for the one reason or the other. -/
theorem rejectedHeaderDiscardsTheBuffer : Obligations.RejectedHeaderDiscardsTheBuffer := by
  intro s data hst hh ha hl
  refine ⟨fun hsig => ?_, fun hsig hsig2 hid haudio hstream => ?_⟩
  · exact exec_rxPush_of_unsigned hst hh ha hl fun h => hsig ((Header.signed_iff _).1 h)
  · refine exec_rxPush_of_notAddressed hst hh ha hl ((Header.signed_iff _).2 ⟨hsig, hsig2⟩) fun h => ?_
    rcases (Header.addressedTo_iff _ _).1 h with h | h | h
    exacts [hid h, haudio h, hstream h]

/-! ### The outcome of one frame (41_frame_receiver.md R105 to R108, 60_exceptions.md R227) -/

theorem Frame.accepted_iff (f : Frame) (station : Byte) :
    f.accepted station ↔ f.header.signed = true ∧ f.header.addressedTo station = true := by
  rw [Frame.accepted, Header.signed_iff, Header.addressedTo_iff, and_assoc]

@[simp] theorem Frame.bytes_length (f : Frame) : f.bytes.length = 20 + f.payload.length := by
  simp [Frame.bytes]

theorem Frame.deciphered_eq (f : Frame) : f.deciphered = decipher f.payload f.header := by
  simp only [Frame.deciphered, decipher, optsXor_iff, xorBytes]

/-- The tests of a decoded TEXT payload, its length before its checksum; an audio payload has none (41_frame_receiver.md R106). -/
def recordCheck (params : Params) (divisor : Nat) (h : Header) (d : ByteString) : Except DropReason ByteString :=
  if optsClass h.decodeOpts ≠ .text then .ok d
  else if d.length ≠ msgLen params then .error .badTextLength
  else if checksumCompute (d.take (msgLen params - 1)) divisor ≠ byteAt d (msgLen params - 1) then .error .checksumMismatch
  else .ok d

section verdict
variable {f : Frame} {params : Params} {r : Regs}

theorem Frame.verdict_of_unsigned (h : ¬ f.header.signed = true) : f.verdict params r = .error .invalidSignature := by
  rw [Header.signed_iff, Classical.not_and_iff_not_or_not] at h
  rw [Frame.verdict, if_pos h]

theorem Frame.verdict_of_notAddressed (hs : f.header.signed = true) (h : ¬ f.header.addressedTo r.stationId = true) :
    f.verdict params r = .error .notAddressed := by
  rw [Header.addressedTo_iff, not_or, not_or] at h
  rw [Header.signed_iff] at hs
  rw [Frame.verdict, if_neg (by simp [hs]), if_pos h]

variable (ha : f.accepted r.stationId)
include ha

theorem Frame.verdict_of_unsupported (hu : optsUnsupported f.header.decodeOpts = true) :
    f.verdict params r = .error .unsupportedOptions := by
  obtain ⟨hsig, hsig2, haddr⟩ := ha
  rw [optsUnsupported_iff] at hu
  rw [Frame.verdict, if_neg (by simp [hsig, hsig2]), if_neg (by tauto), if_pos hu]

variable (hu : ¬ optsUnsupported f.header.decodeOpts = true)
include hu

/-- The verdict on a frame whose options are supported, by its decoding: the tests of a record come last. -/
theorem Frame.verdict_of_supported : f.verdict params r =
    (decompress params r.rleEsc (decipher f.payload f.header) f.header).bind (recordCheck params r.chkDiv.toNat f.header) := by
  obtain ⟨hsig, hsig2, haddr⟩ := ha
  rw [optsUnsupported_iff] at hu
  rw [Frame.verdict, if_neg (by simp [hsig, hsig2]), if_neg (by tauto), if_neg hu, ← Frame.deciphered_eq, decompress]
  simp only [optsCompression_rle_iff]
  by_cases hrle : f.header.decodeOpts.extractLsb' 2 2 = 1
  · cases hadm : admits params.maxDecode f.header.uncompressedLength.toNat with
    | false => simp [hrle, Except.bind]
    | true =>
      simp only [hrle, if_true]
      cases rleDecompress f.deciphered r.rleEsc f.header.uncompressedLength.toNat with
      | error e => simp [Except.bind]
      | ok d => simp [Except.bind, recordCheck, optsClass_text_iff, msgLen]
  · simp only [hrle, false_and, if_false]
    simp [Except.bind, recordCheck, optsClass_text_iff, msgLen]

end verdict

theorem State.report_of_error {f : Frame} {s : State} {reason : DropReason} (h : f.verdict s.params s.regs = .error reason) :
    s.report f = s.drop reason := by
  simp [State.report, h, State.drop, State.emit]

/-- A delivered payload is dispatched by its class. -/
theorem State.report_of_ok {f : Frame} {s : State} {d : ByteString} (h : f.verdict s.params s.regs = .ok d) : s.report f =
    if optsClass f.header.decodeOpts = .text then s.enqueue d
    else if optsClass f.header.decodeOpts = .audio then s.emit (.audioReceived d)
    else s.emit (.audioStreamReceived d) := by
  simp [State.report, h, State.emit, State.enqueue, optsClass_text_iff, optsClass_audio_iff]

/-- Reporting a frame touches the events and the queue only. -/
theorem State.report_frame (s : State) (f : Frame) :
    s.report f = { s with ev := (s.report f).ev, mq := (s.report f).mq } := by
  cases h : f.verdict s.params s.regs with
  | error reason => rw [State.report_of_error h]; rfl
  | ok d =>
    rw [State.report_of_ok h]
    split
    · rfl
    · split <;> rfl

@[simp] theorem State.report_regs (s : State) (f : Frame) : (s.report f).regs = s.regs := by rw [State.report_frame]
@[simp] theorem State.report_rx (s : State) (f : Frame) : (s.report f).rx = s.rx := by rw [State.report_frame]

theorem optsClass_ne_reserved {o : Byte} (h : ¬ optsUnsupported o = true) : optsClass o ≠ .reserved := by
  rw [optsUnsupported_iff] at h
  rw [Ne, optsClass_reserved_iff]
  exact fun hr => h (.inl hr)

/-- A decoded payload is reported as its record's tests say. -/
theorem dispatch_eq_report {s : State} {f : Frame} {d : ByteString} (hu : ¬ optsUnsupported f.header.decodeOpts = true)
    (hv : f.verdict s.params s.regs = recordCheck s.params s.regs.chkDiv.toNat f.header d) :
    dispatch d f.header s = s.report f := by
  cases hclass : optsClass f.header.decodeOpts with
  | text =>
    simp only [recordCheck, hclass, ne_eq, not_true_eq_false, if_false] at hv
    simp only [dispatch, hclass, dispatchText]
    split_ifs with hlen hsum
    · exact (State.report_of_error (by rw [hv, if_pos hlen])).symm
    · rw [State.report_of_ok (d := d) (by rw [hv, if_neg hlen, if_neg (not_not.2 hsum)]), if_pos hclass]
    · exact (State.report_of_error (by rw [hv, if_neg hlen, if_pos hsum])).symm
  | audio | audioStream =>
    rw [State.report_of_ok (d := d) (by simp [hv, recordCheck, hclass]), dispatch]
    simp [hclass]
  | reserved => exact absurd hclass (optsClass_ne_reserved hu)

/-- The receiver's processing of an accepted frame's payload is the spec's report of the frame. -/
theorem processPayload_eq_report {s : State} {f : Frame} (ha : f.accepted s.regs.stationId) :
    processPayload f.payload f.header s = s.report f := by
  unfold processPayload
  split
  · exact (State.report_of_error (Frame.verdict_of_unsupported ha ‹_›)).symm
  · rename_i hu
    have hv := Frame.verdict_of_supported (params := s.params) ha hu
    split
    · rename_i reason hd
      rw [hd] at hv
      exact (State.report_of_error hv).symm
    · rename_i d hd
      rw [hd] at hv
      exact dispatch_eq_report hu hv

theorem State.setRx_setRx (s : State) (rx rx' : Rx) : (s.setRx rx).setRx rx' = s.setRx rx' := rfl

/-! ### What processing a payload does not look at (41_frame_receiver.md R105, R113)

Of the registers it reads RLE_ESC and CHK_DIV only, and it looks neither at the receiver nor at the responses given. -/

section unread
variable {s : State} {r : Regs} (rx : Rx) (q : List Response) (hesc : r.rleEsc = s.regs.rleEsc) (hdiv : r.chkDiv = s.regs.chkDiv)

include hdiv in
theorem dispatch_unread (d : ByteString) (h : Header) :
    dispatch d h { s with regs := r, rx := rx, responses := q } =
      { dispatch d h s with regs := r, rx := rx, responses := q } := by
  unfold dispatch
  split
  · simp only [dispatchText, hdiv]
    split_ifs <;> rfl
  all_goals rfl

include hesc hdiv in
theorem processPayload_unread (p : ByteString) (h : Header) :
    processPayload p h { s with regs := r, rx := rx, responses := q } =
      { processPayload p h s with regs := r, rx := rx, responses := q } := by
  simp only [processPayload, hesc]
  split
  · rfl
  · cases decompress s.params s.regs.rleEsc (decipher p h) h with
    | error reason => rfl
    | ok d => exact dispatch_unread rx q hdiv d h

end unread

@[simp] theorem processPayload_regs (p : ByteString) (h : Header) (s : State) : (processPayload p h s).regs = s.regs := by
  rw [processPayload_frame]

theorem processPayload_setRx (p : ByteString) (h : Header) (s : State) (rx : Rx) :
    processPayload p h (s.setRx rx) = (processPayload p h s).setRx rx := by
  have hunread : processPayload p h (s.setRx rx) =
      { processPayload p h s with regs := s.regs, rx := rx, responses := s.responses } :=
    processPayload_unread rx s.responses rfl rfl p h
  rw [hunread, processPayload_frame p h s]
  rfl

theorem processPayload_withResponses (p : ByteString) (h : Header) (s : State) (q : List Response) :
    processPayload p h { s with responses := q } = { processPayload p h s with responses := q } := by
  have hunread : processPayload p h { s with responses := q } =
      { processPayload p h s with regs := s.regs, rx := s.rx, responses := q } :=
    processPayload_unread s.rx q rfl rfl p h
  rw [hunread, processPayload_frame p h s]

/-! ### Frames at the head of the buffer -/

/-- Bytes behind a complete header do not change it. -/
theorem parseHeader_append {a : ByteString} (hl : hdrLen ≤ a.length) (b : ByteString) :
    parseHeader (a ++ b) = parseHeader a := by
  rw [← parseHeader_take, List.take_append_of_le_length hl, parseHeader_take]

/-- An accepted header at the head of the buffer is consumed and held. -/
theorem drain_of_header {s : State} {h : Header} {rest : ByteString} (hst : s.rx.state = .awaitingHeader)
    (hacc : s.rx.acc = h.bytes ++ rest) (ha : (Frame.mk h rest).accepted s.regs.stationId) :
    drain s = drain (s.setRx { state := .awaitingPayload, acc := rest, hdr := some h }) := by
  obtain ⟨hsigned, haddr⟩ := (Frame.accepted_iff _ _).1 ha
  have hparse : parseHeader s.rx.acc = h := by rw [hacc, parseHeader_bytes]
  have hdrop : s.rx.acc.drop hdrLen = rest := by rw [hacc, List.drop_left' (by simp [hdrLen])]
  have hstage := drainStage_of_acceptedHeader hst (by simp [hacc, hdrLen]) (by rwa [hparse]) (by rwa [hparse])
  rw [drain_of_progress hstage, hparse, hdrop]

/-- A payload complete at the head of the buffer is consumed and processed. -/
theorem drain_of_payload {s : State} {h : Header} {payload rest : ByteString} (hst : s.rx.state = .awaitingPayload)
    (hh : s.rx.hdr = some h) (hacc : s.rx.acc = payload ++ rest) (hlen : payload.length = h.dataLength.toNat) :
    drain s = drain ((processPayload payload h s).setRx { state := .awaitingHeader, acc := rest, hdr := none }) := by
  have hstage := drainStage_of_payload hst hh (by simp [hacc, ← hlen])
  rw [drain_of_progress hstage, hacc, ← hlen, List.take_left, List.drop_left, processPayload_setRx]

section idle
variable {s : State} (hidle : s.receiverIdle)
include hidle

/-- An idle receiver has nothing to drain. -/
theorem drain_of_idle : drain s = s :=
  drain_of_wait (drainStage_of_partialHeader (by rw [hidle]) (by rw [hidle]; simp [hdrLen]))

theorem State.buffer_of_idle (data : ByteString) :
    s.buffer data = s.setRx { state := .awaitingHeader, acc := data, hdr := none } := by
  rw [State.buffer, State.setAcc, hidle]
  rfl

theorem State.report_idle (f : Frame) : (s.report f).receiverIdle := by
  rw [State.receiverIdle, State.report_rx]
  exact hidle

/-- A complete accepted frame in front of the bytes pushed on an idle receiver is consumed and reported. -/
theorem drain_buffer_frame {f : Frame} (hc : f.complete) (ha : f.accepted s.regs.stationId) (rest : ByteString) :
    drain (s.buffer (f.bytes ++ rest)) = drain ((s.report f).buffer rest) := by
  have hheader := drain_of_header (s := s.setRx ⟨.awaitingHeader, f.bytes ++ rest, none⟩) rfl (List.append_assoc ..) ha
  have hpayload := drain_of_payload (s := s.setRx ⟨.awaitingPayload, f.payload ++ rest, some f.header⟩) rfl rfl rfl hc
  rw [State.buffer_of_idle hidle, hheader, State.setRx_setRx, hpayload, processPayload_setRx, processPayload_eq_report ha,
    State.buffer_of_idle (State.report_idle hidle f), State.setRx_setRx]

end idle

/-- Complete accepted frames pushed at once on an idle receiver are reported one after the other. -/
theorem drain_buffer_frames {frames : List Frame} {s : State} (hidle : s.receiverIdle)
    (hf : ∀ f ∈ frames, f.complete ∧ f.accepted s.regs.stationId) :
    drain (s.buffer (frames.flatMap Frame.bytes)) = frames.foldl State.report s := by
  induction frames generalizing s with
  | nil => rw [List.flatMap_nil, State.buffer_nil, drain_of_idle hidle, List.foldl_nil]
  | cons f fs ih =>
    obtain ⟨⟨hc, ha⟩, hfs⟩ := List.forall_mem_cons.1 hf
    rw [List.flatMap_cons, drain_buffer_frame hidle hc ha, List.foldl_cons,
      ih (State.report_idle hidle f) (by simpa using hfs)]

/-- The report of a frame and the answer to its push. -/
theorem State.ret_report (s : State) (f : Frame) :
    (s.report f).ret [] = { s.report f with responses := s.answered [0x00] } := by
  rw [State.report_frame]
  rfl

/-! ### One frame pushed (41_frame_receiver.md R103 to R113) -/

/-- Settles O31: the header is consumed, and the next iteration waits for the payload. -/
theorem acceptedHeaderIsHeld : Obligations.AcceptedHeaderIsHeld := by
  intro s data h surplus hst hadm hacc haccepted hshort
  rw [exec_rxPush_of_admits hadm, drain_of_header (s := s.buffer data) hst hacc haccepted,
    drain_of_wait (drainStage_of_partialPayload rfl rfl hshort)]
  rfl

/-- Settles O32: a rejected header discards the frame, and an accepted one leads to its payload being processed. -/
theorem completeFrameIsReportedOnce : Obligations.CompleteFrameIsReportedOnce := by
  intro s f hidle hc hadm
  have hst : s.rx.state = .awaitingHeader := by rw [hidle]
  have hh : s.rx.hdr = none := by rw [hidle]
  have hacc : s.rx.acc = [] := by rw [hidle]
  have hadm' : admits s.params.accCap (s.rx.acc.length + f.bytes.length) = true := by simpa [hacc] using hadm
  have hl : 20 ≤ s.rx.acc.length + f.bytes.length := by simp [hacc]
  have hparse : parseHeader (s.rx.acc ++ f.bytes) = f.header := by rw [hacc]; exact parseHeader_bytes _ _
  by_cases hs : f.header.signed = true
  · by_cases hn : f.header.addressedTo s.regs.stationId = true
    · have hfs : ∀ g ∈ [f], g.complete ∧ g.accepted s.regs.stationId := by
        simpa using ⟨hc, (f.accepted_iff _).2 ⟨hs, hn⟩⟩
      have hdrain := drain_buffer_frames hidle hfs
      rw [List.flatMap_singleton] at hdrain
      rw [exec_rxPush_of_admits hadm', hdrain, List.foldl_cons, List.foldl_nil, State.ret_report]
    · rw [State.report_of_error (Frame.verdict_of_notAddressed hs hn),
        exec_rxPush_of_notAddressed hst hh hadm' hl (by rwa [hparse]) (by rwa [hparse]), ← hidle]
      rfl
  · rw [State.report_of_error (Frame.verdict_of_unsigned hs),
      exec_rxPush_of_unsigned hst hh hadm' hl (by rwa [hparse]), ← hidle]
    rfl

/-- Settles O34: the rejected frame leaves the receiver idle (O32), so that the next one is received as on an idle receiver. -/
theorem frameAfterDiscardIsReceived : Obligations.FrameAfterDiscardIsReceived := by
  intro s t bad f hidle hbc hbad hc ha hadmb hadm hexec
  cases (completeFrameIsReportedOnce s bad hidle hbc hadmb).symm.trans hexec
  have hdrop : ∃ reason, s.report bad = s.drop reason := by
    rw [Frame.accepted_iff, Classical.not_and_iff_not_or_not] at hbad
    by_cases hs : bad.header.signed = true
    · exact ⟨_, State.report_of_error (Frame.verdict_of_notAddressed hs (hbad.resolve_left (not_not.2 hs)))⟩
    · exact ⟨_, State.report_of_error (Frame.verdict_of_unsigned hs)⟩
  obtain ⟨reason, hdrop⟩ := hdrop
  rw [hdrop]
  exact ⟨hidle, rfl, completeFrameIsReportedOnce _ f hidle hc hadm⟩

/-- The report of a signed frame by its own station's registers is what processing its payload does with the present ones: the station
id is not looked at again (41_frame_receiver.md R113). -/
theorem processPayload_eq_report_at_receiver {s : State} {f : Frame} (hs : f.header.signed = true) :
    { State.report { s with regs := { s.regs with stationId := f.header.receiverId } } f with
      regs := s.regs, rx := { state := .awaitingHeader, acc := [], hdr := none } } =
    (processPayload f.payload f.header s).setRx { state := .awaitingHeader, acc := [], hdr := none } := by
  have ha : f.accepted f.header.receiverId := (f.accepted_iff _).2 ⟨hs, by simp [Header.addressedTo]⟩
  rw [← processPayload_eq_report (s := { s with regs := { s.regs with stationId := f.header.receiverId } }) ha]
  have hunread := processPayload_unread (s := s) (r := { s.regs with stationId := f.header.receiverId }) s.rx s.responses rfl rfl
    f.payload f.header
  rw [hunread, processPayload_frame _ _ s]
  rfl

/-- Settles O35: the payload is consumed with its frame reported, and the surplus is left on an idle receiver. -/
theorem heldFrameDecodesWithCurrentRegisters : Obligations.HeldFrameDecodesWithCurrentRegisters := by
  intro s u h data payload surplus hst hh hsig hsig2 hadm hacc hlen hu
  have hu' : u = (processPayload payload h s).setRx { state := .awaitingHeader, acc := [], hdr := none } :=
    hu.trans (processPayload_eq_report_at_receiver (f := ⟨h, payload⟩) ((Header.signed_iff h).2 ⟨hsig, hsig2⟩))
  have hidle : u.receiverIdle := by rw [hu']; rfl
  have hdrain : drain (s.buffer data) = drain (u.buffer surplus) := by
    rw [drain_of_payload (s := s.buffer data) hst hh hacc hlen, State.buffer_of_idle hidle, hu', State.buffer_eq_setRx,
      processPayload_setRx]
    rfl
  have hlens : s.rx.acc.length + data.length = payload.length + surplus.length := by
    rw [← List.length_append, hacc, List.length_append]
  have hadmu : admits u.params.accCap (u.rx.acc.length + surplus.length) = true := by
    have hparams : u.params = s.params := by rw [hu', processPayload_frame]; rfl
    have hrx : u.rx.acc = [] := by rw [hidle]
    rw [hparams, hrx]
    exact admits_mono (by rw [List.length_nil]; omega) hadm
  have hpush : exec (.rxPush data) s = exec (.rxPush surplus) u := by
    rw [exec_rxPush_of_admits hadm, exec_rxPush_of_admits hadmu, hdrain]
  refine ⟨fun hnil => ?_, hpush⟩
  rw [hpush, exec_rxPush_of_admits hadmu, hnil, State.buffer_nil, drain_of_idle hidle, hu', processPayload_frame]
  rfl

/-! ### Frames delivered in pieces (41_frame_receiver.md R109) -/

/-- What is buffered, with the bytes `rest` still to come, is complete accepted frames; the header of the first may be held
already. -/
def Receiving (s : State) (rest : ByteString) : Prop :=
  ∃ frames : List Frame, (∀ f ∈ frames, f.complete ∧ f.accepted s.regs.stationId) ∧
    ((s.rx.state = .awaitingHeader ∧ s.rx.acc ++ rest = frames.flatMap Frame.bytes) ∨
     (∃ f : Frame, f.complete ∧ s.rx.state = .awaitingPayload ∧ s.rx.hdr = some f.header ∧
       s.rx.acc ++ rest = f.payload ++ frames.flatMap Frame.bytes))

theorem receiving_of_idle {s : State} {frames : List Frame} (hidle : s.receiverIdle)
    (hf : ∀ f ∈ frames, f.complete ∧ f.accepted s.regs.stationId) : Receiving s (frames.flatMap Frame.bytes) :=
  ⟨frames, hf, .inl ⟨by rw [hidle], by rw [hidle]; rfl⟩⟩

/-- Buffering the next bytes of a delivery goes on with it. -/
theorem Receiving.buffer {s : State} {data rest : ByteString} (h : Receiving s (data ++ rest)) :
    Receiving (s.buffer data) rest := by
  simpa only [Receiving, State.buffer, State.setAcc, List.append_assoc] using h

/-- A header buffered in a delivery is that of its next frame. -/
theorem Receiving.next_frame {s : State} {rest : ByteString} (h : Receiving s rest) (hst : s.rx.state = .awaitingHeader)
    (hl : hdrLen ≤ s.rx.acc.length) :
    ∃ (f : Frame) (frames : List Frame), (∀ g ∈ f :: frames, g.complete ∧ g.accepted s.regs.stationId) ∧
      parseHeader s.rx.acc = f.header ∧ s.rx.acc.drop hdrLen ++ rest = f.payload ++ frames.flatMap Frame.bytes := by
  obtain ⟨frames, hf, ⟨_, hacc⟩ | ⟨_, _, hst', _⟩⟩ := h
  · cases frames with
    | nil =>
      obtain ⟨hnil, _⟩ := List.append_eq_nil_iff.1 hacc
      simp [hnil, hdrLen] at hl
    | cons f frames =>
      have hbytes : s.rx.acc ++ rest = f.header.bytes ++ (f.payload ++ frames.flatMap Frame.bytes) := by
        rw [hacc, List.flatMap_cons, Frame.bytes, List.append_assoc]
      refine ⟨f, frames, hf, ?_, ?_⟩
      · rw [← parseHeader_append hl rest, hbytes, parseHeader_bytes]
      · rw [← List.drop_append_of_le_length hl, hbytes, List.drop_left' (by simp [hdrLen])]
  · exact absurd (hst.symm.trans hst') (by simp)

/-- No header of the delivery is rejected, so that the iteration that ends the loop changes nothing, and the others go on with the
delivery. -/
theorem Receiving.stage {s : State} {rest : ByteString} (h : Receiving s rest) :
    drainStage s = (.wait, s) ∨ ∃ s', drainStage s = (.progress, s') ∧ Receiving s' rest := by
  rcases drainStage_cases s with hw | ⟨hst, hl, hrejected, _⟩ | ⟨hst, hl, _, _, hp⟩ | ⟨hd, hst, hh, hl, hp⟩
  · exact .inl hw
  · obtain ⟨f, frames, hf, hparse, _⟩ := h.next_frame hst hl
    rw [hparse, ← Frame.accepted_iff] at hrejected
    exact absurd (hf f List.mem_cons_self).2 hrejected
  · obtain ⟨f, frames, hf, hparse, hacc⟩ := h.next_frame hst hl
    obtain ⟨⟨hc, _⟩, hfs⟩ := List.forall_mem_cons.1 hf
    exact .inr ⟨_, hp, frames, hfs, .inr ⟨f, hc, rfl, congrArg some hparse, hacc⟩⟩
  · obtain ⟨frames, hf, ⟨hst', _⟩ | ⟨f, hc, _, hh', hacc⟩⟩ := h
    · exact absurd (hst.symm.trans hst') (by simp)
    · cases hh.symm.trans hh'
      refine .inr ⟨_, hp, frames, by simpa using hf, .inl ⟨by simp, ?_⟩⟩
      rw [processPayload_rx, State.setRx_rx, ← List.drop_append_of_le_length hl, hacc, List.drop_left' hc]

/-- A stage that progresses does so alike with more bytes behind those it has. -/
theorem drainStage_buffer_of_progress {s s' : State} (h : drainStage s = (.progress, s')) (data : ByteString) :
    drainStage (s.buffer data) = (.progress, s'.buffer data) := by
  rcases drainStage_cases s with hw | ⟨_, _, _, _, hw⟩ | ⟨hst, hl, hs, ha, hp⟩ | ⟨hd, hst, hh, hl, hp⟩
  · cases hw.symm.trans h
  · cases hw.symm.trans h
  · cases hp.symm.trans h
    have hparse : parseHeader (s.buffer data).rx.acc = parseHeader s.rx.acc := parseHeader_append hl data
    have hdrop : (s.buffer data).rx.acc.drop hdrLen = s.rx.acc.drop hdrLen ++ data := List.drop_append_of_le_length hl
    rw [drainStage_of_acceptedHeader (s := s.buffer data) hst (hl.trans (by simp)) (by rwa [hparse]) (by rwa [hparse]), hparse,
      hdrop]
    rfl
  · cases hp.symm.trans h
    have htake : (s.buffer data).rx.acc.take hd.dataLength.toNat = s.rx.acc.take hd.dataLength.toNat :=
      List.take_append_of_le_length hl
    have hdrop : (s.buffer data).rx.acc.drop hd.dataLength.toNat = s.rx.acc.drop hd.dataLength.toNat ++ data :=
      List.drop_append_of_le_length hl
    rw [drainStage_of_payload (s := s.buffer data) hst hh (hl.trans (by simp)), htake, hdrop, processPayload_setRx,
      State.buffer_eq_setRx, processPayload_setRx, processPayload_setRx]
    rfl

theorem Receiving.drained {s : State} {rest : ByteString} (h : Receiving s rest) : Receiving (drain s) rest := by
  induction s using drain_induction with
  | step s ih =>
    obtain hw | ⟨s', hp, hs'⟩ := h.stage
    · rwa [drain_of_wait hw]
    · rw [drain_of_progress hp]
      exact ih s' hp hs'

/-- Bytes of the delivery may be buffered after the drain or before it. -/
theorem Receiving.drain_buffer_drain {s : State} {rest : ByteString} (h : Receiving s rest) (data : ByteString) :
    drain ((drain s).buffer data) = drain (s.buffer data) := by
  induction s using drain_induction with
  | step s ih =>
    obtain hw | ⟨s', hp, hs'⟩ := h.stage
    · rw [drain_of_wait hw]
    · rw [drain_of_progress hp, ih s' hp hs', drain_of_progress (drainStage_buffer_of_progress hp data)]

/-- An iteration does not look at the responses given. -/
theorem drainStage_withResponses (s : State) (q : List Response) :
    drainStage { s with responses := q } = ((drainStage s).1, { (drainStage s).2 with responses := q }) := by
  unfold drainStage
  cases s.rx.state with
  | awaitingHeader =>
    simp only [headerStage]
    split_ifs <;> rfl
  | awaitingPayload =>
    simp only [payloadStage]
    cases s.rx.hdr with
    | none => rfl
    | some h =>
      simp only
      split_ifs
      · rfl
      · exact congrArg (Prod.mk Stage.progress) (processPayload_withResponses _ h (s.setRx _) q)

theorem drain_withResponses (s : State) (q : List Response) :
    drain { s with responses := q } = { drain s with responses := q } := by
  induction s using drain_induction with
  | step s ih =>
    have hq := drainStage_withResponses s q
    rcases h : drainStage s with ⟨_ | _, s'⟩ <;> rw [h] at hq
    · rw [drain_of_wait hq, drain_of_wait h]
    · rw [drain_of_progress hq, drain_of_progress h, ih s' h]

/-- Pieces of a delivery pushed one after the other drain as if pushed at once, but for the number of responses. -/
theorem execAll_rxPush_of_receiving {chunks : List ByteString} {s : State} (hsettled : drain s = s)
    (hr : Receiving s chunks.flatten) (hno : NoOverflow chunks s) :
    execAll (chunks.map Instr.rxPush) s = .next { drain (s.buffer chunks.flatten) with
      responses := s.responses ++ chunks.map (fun _ => { port := s.port, bytes := [0x00] }) } := by
  induction chunks generalizing s with
  | nil =>
    rw [List.flatten_nil, State.buffer_nil, hsettled]
    simp [execAll]
  | cons c cs ih =>
    obtain ⟨hadm, hnext⟩ := hno
    have hr' : Receiving (s.buffer c) cs.flatten := hr.buffer
    have hexec : exec (.rxPush c) s = .next { drain (s.buffer c) with responses := s.answered [0x00] } := by
      rw [exec_rxPush_of_admits hadm, ret_drain_buffer]
    have hsettled' : drain { drain (s.buffer c) with responses := s.answered [0x00] } =
        { drain (s.buffer c) with responses := s.answered [0x00] } := by
      rw [drain_withResponses, drain_of_wait (drain_settled _)]
    have hmerged : drain (State.buffer { drain (s.buffer c) with responses := s.answered [0x00] } cs.flatten) =
        { drain (s.buffer (c ++ cs.flatten)) with responses := s.answered [0x00] } := by
      rw [← State.buffer_append, ← hr'.drain_buffer_drain, ← drain_withResponses ((drain (s.buffer c)).buffer _)]
      rfl
    have hport : (drain (s.buffer c)).port = s.port := by rw [drain_frame]; rfl
    rw [List.map_cons, execAll, hexec]
    simp only
    rw [ih hsettled' hr'.drained (hnext _ hexec), hmerged]
    simp [hport, State.answered]

/-- Settles O33: the pieces are received as if pushed at once, and that reports the frames one after the other. -/
theorem dispatchIsIndependentOfChunking : Obligations.DispatchIsIndependentOfChunking := by
  intro s frames chunks hidle hf hflat hno
  rw [execAll_rxPush_of_receiving (drain_of_idle hidle) (hflat ▸ receiving_of_idle hidle hf) hno, hflat,
    drain_buffer_frames hidle hf]

end Sys2Proof.Machine
end

section
/-! The run-length codec as items (30_encoding.md R85): what the compressor emits is a sequence of well-formed items that stand for
its input, and the decoder's loop reads such a sequence item by item. -/

namespace Sys2Proof.Machine

/-! ### The compressor emits items (43_rle_codec.md R150) -/

/-- The items of one run: a token, or literals. -/
def runItems (e b : Byte) (n : Nat) : List RleItem :=
  if b = e ∨ rleMinRun ≤ n then [.run (BitVec.ofNat 8 n) b] else List.replicate n (.literal b)

theorem runItems_wire (e b : Byte) (n : Nat) : (runItems e b n).flatMap (RleItem.wire e) = rleItem e b n := by
  unfold runItems rleItem
  split
  · rfl
  · simp [List.flatMap_replicate, RleItem.wire]

/-- The count of a run fits its byte. -/
theorem toNat_runCount {n : Nat} (hn : n ≤ rleMaxCount) : (BitVec.ofNat 8 n).toNat = n :=
  Nat.mod_eq_of_lt (Nat.lt_succ_of_le hn)

theorem runItems_plain (e b : Byte) {n : Nat} (hn : n ≤ rleMaxCount) :
    (runItems e b n).flatMap RleItem.plain = List.replicate n b := by
  unfold runItems
  split
  · simp [RleItem.plain, toNat_runCount hn]
  · simp [List.flatMap_replicate, RleItem.plain]

theorem runItems_valid (e b : Byte) {n : Nat} (h1 : 1 ≤ n) (hn : n ≤ rleMaxCount) : ∀ i ∈ runItems e b n, i.valid e := by
  unfold runItems
  split
  · have hcount : BitVec.ofNat 8 n ≠ 0 := fun h => by
      have hzero : 0 = n := (congrArg BitVec.toNat h).symm.trans (toNat_runCount hn)
      omega
    simpa [RleItem.valid] using hcount
  · rename_i hliteral
    intro i hi
    rw [List.eq_of_mem_replicate hi]
    exact fun hbe => hliteral (.inl hbe)

/-- The scan with a run of `n` bytes counted emits items that stand for that run and the rest. -/
theorem exists_items_rleScan (e b : Byte) {n : Nat} (h1 : 1 ≤ n) (hn : n ≤ rleMaxCount) (x : ByteString) :
    ∃ items : List RleItem, (∀ i ∈ items, i.valid e) ∧ rleScan e b n x = items.flatMap (RleItem.wire e) ∧
      items.flatMap RleItem.plain = List.replicate n b ++ x := by
  induction x generalizing b n with
  | nil => exact ⟨runItems e b n, runItems_valid e b h1 hn, (runItems_wire e b n).symm, by simp [runItems_plain e b hn]⟩
  | cons c x ih =>
    rw [rleScan]
    split
    · rename_i hgrow
      obtain ⟨rfl, hlt⟩ := hgrow
      obtain ⟨items, hvalid, hwire, hplain⟩ := ih c (Nat.le_add_left 1 n) hlt
      exact ⟨items, hvalid, hwire, by rw [hplain, List.replicate_succ', List.append_assoc]; rfl⟩
    · obtain ⟨items, hvalid, hwire, hplain⟩ := ih c le_rfl (by decide)
      refine ⟨runItems e b n ++ items, ?_, ?_, ?_⟩
      · exact List.forall_mem_append.2 ⟨runItems_valid e b h1 hn, hvalid⟩
      · rw [List.flatMap_append, runItems_wire, hwire]
      · rw [List.flatMap_append, runItems_plain e b hn, hplain]
        rfl

theorem exists_items_rleCompress (x : ByteString) (e : Byte) : ∃ items : List RleItem,
    (∀ i ∈ items, i.valid e) ∧ rleCompress x e = items.flatMap (RleItem.wire e) ∧ items.flatMap RleItem.plain = x := by
  cases x with
  | nil => exact ⟨[], by simp, rfl, rfl⟩
  | cons b x => exact exists_items_rleScan e b le_rfl (by decide) x

/-! ### The decoder reads items (43_rle_codec.md R151) -/

/-- A well-formed item that fits is decoded to what it stands for. -/
theorem rleExpand_item {e : Byte} {limit : Nat} {out : ByteString} {i : RleItem} (hi : i.valid e)
    (hl : (out ++ i.plain).length ≤ limit) (rest : ByteString) :
    rleExpand e limit out (i.wire e ++ rest) = rleExpand e limit (out ++ i.plain) rest := by
  cases i with
  | literal b =>
    have hb : b ≠ e := hi
    simp only [RleItem.wire, RleItem.plain, List.cons_append, List.nil_append] at hl ⊢
    rw [rleExpand.eq_def]
    simp only
    rw [if_pos hb, if_neg (Nat.not_lt.2 hl)]
  | run n v =>
    have hn : n ≠ 0 := hi
    simp only [RleItem.wire, RleItem.plain, List.cons_append, List.nil_append] at hl ⊢
    rw [rleExpand, if_neg (not_not.2 rfl), if_neg hn, if_neg (Nat.not_lt.2 hl)]

/-- Well-formed items that fit are decoded one after the other. -/
theorem rleExpand_items {e : Byte} {limit : Nat} {items : List RleItem} {out : ByteString} (hv : ∀ i ∈ items, i.valid e)
    (hl : (out ++ items.flatMap RleItem.plain).length ≤ limit) (rest : ByteString) :
    rleExpand e limit out (items.flatMap (RleItem.wire e) ++ rest) =
      rleExpand e limit (out ++ items.flatMap RleItem.plain) rest := by
  induction items generalizing out with
  | nil => simp
  | cons i items ih =>
    obtain ⟨hi, hv⟩ := List.forall_mem_cons.1 hv
    rw [List.flatMap_cons, ← List.append_assoc] at hl
    have hfirst : (out ++ i.plain).length ≤ limit := by rw [List.length_append] at hl; omega
    rw [List.flatMap_cons, List.flatMap_cons, List.append_assoc, rleExpand_item hi hfirst, ih hv hl, List.append_assoc]

/-- The decoder undoes the compressor, for every escape byte (43_rle_codec.md R154). -/
theorem rleDecompress_rleCompress (x : ByteString) (e : Byte) : rleDecompress (rleCompress x e) e x.length = .ok x := by
  obtain ⟨items, hvalid, hwire, hplain⟩ := exists_items_rleCompress x e
  have hread := rleExpand_items (out := []) (limit := x.length) hvalid (by rw [hplain]; simp) []
  rw [List.append_nil, List.nil_append, hplain] at hread
  rw [rleDecompress, hwire, hread, rleExpand, if_neg (Nat.lt_irrefl _)]

end Sys2Proof.Machine
end

section
/-! Family 42_frame_encoder.md: the record and its fields, the frame that a framed TX_ENCODE emits, what a TX_ENCODE does, and the
way of a frame from one block to another. -/

namespace Sys2Proof.Machine

/-! ### The Message record (42_frame_encoder.md R133, 30_encoding.md R84) -/

theorem textField_getElem? {cap k : Nat} (hk : k < cap) (payload : ByteString) :
    (textField cap payload)[k]? = some (if k < payload.length then byteAt payload k else 0x00) := by
  rw [textField, List.getElem?_take_of_lt hk]
  split
  · rename_i hlt
    rw [List.getElem?_append_left hlt, byteAt, List.getD_eq_getElem?_getD, List.getElem?_eq_getElem hlt, Option.getD_some]
  · rename_i hge
    rw [List.getElem?_append_right (Nat.le_of_not_lt hge), List.getElem?_replicate_of_lt (by omega)]

theorem recordBody_length (params : Params) (r : Regs) (receiverId : Byte) (payload : ByteString) :
    (recordBody params r receiverId payload).length = 11 + params.textCap := by
  simp [recordBody]
  omega

/-- The record without its last byte is what the checksum is taken of. -/
theorem buildMessage_take (params : Params) (r : Regs) (receiverId : Byte) (payload : ByteString) :
    (buildMessage params r receiverId payload).take (11 + params.textCap) = recordBody params r receiverId payload :=
  List.take_left' (recordBody_length ..)

theorem buildMessage_getElem?_checksum (params : Params) (r : Regs) (receiverId : Byte) (payload : ByteString) :
    (buildMessage params r receiverId payload)[11 + params.textCap]? =
      some (checksumCompute (recordBody params r receiverId payload) r.chkDiv.toNat) := by
  rw [buildMessage, List.getElem?_append_right (recordBody_length ..).le, recordBody_length, Nat.sub_self]
  rfl

/-- A record that the encoder built verifies (45_checksum.md R183). -/
theorem buildMessage_verifies (params : Params) (r : Regs) (receiverId : Byte) (payload : ByteString) :
    checksumCompute ((buildMessage params r receiverId payload).take (11 + params.textCap)) r.chkDiv.toNat =
      byteAt (buildMessage params r receiverId payload) (11 + params.textCap) := by
  rw [buildMessage_take, byteAt, List.getD_eq_getElem?_getD, buildMessage_getElem?_checksum, Option.getD_some]

/-- The record by its fields, in their order. -/
theorem buildMessage_eq_fields (params : Params) (r : Regs) (receiverId : Byte) (payload : ByteString) :
    buildMessage params r receiverId payload =
      [receiverId, r.stationId, r.txPriority] ++ (le32 r.txSeq ++ (le32 r.txTime ++ (textField params.textCap payload ++
        [checksumCompute (recordBody params r receiverId payload) r.chkDiv.toNat]))) := by
  simp only [buildMessage, recordBody, List.append_assoc]

theorem buildMessage_getElem?_text {params : Params} {k : Nat} (hk : k < params.textCap) (r : Regs) (receiverId : Byte)
    (payload : ByteString) : (buildMessage params r receiverId payload)[11 + k]? = (textField params.textCap payload)[k]? := by
  rw [buildMessage_eq_fields, ← List.append_assoc, ← List.append_assoc,
    List.getElem?_append_right (by simp), List.getElem?_append_left (by simpa using hk)]
  simp

/-- Settles O40: the record by its fields, in their order. -/
theorem messageRecordLayout : Obligations.MessageRecordLayout := by
  rintro params r receiverId payload m rfl
  refine ⟨buildMessage_length .., rfl, rfl, rfl, ?_, ?_, fun k hk => ?_, ?_⟩
  · rw [buildMessage_eq_fields, rd32_append _ _ 3 rfl, rd32_le32_append]
  · rw [buildMessage_eq_fields, ← List.append_assoc, rd32_append _ _ 7 (by simp), rd32_le32_append]
  · rw [buildMessage_getElem?_text hk, textField_getElem? hk]
  · rw [buildMessage_getElem?_checksum, buildMessage_take]

/-! ### The pipeline by bit fields (42_frame_encoder.md R131, R134) -/

theorem encoderRefuses_iff (opts : Byte) : encoderRefuses opts = true ↔
    opts.extractLsb' 0 2 = 3 ∨ opts.extractLsb' 2 2 = 2 ∨ opts.extractLsb' 2 2 = 3 ∨ opts.extractLsb' 5 3 ≠ 0 := by
  simp only [encoderRefuses, optsReserved, Bool.or_eq_true, optsUnsupported_iff, bne_iff_ne, or_assoc]

theorem Regs.afterFrame_eq (r : Regs) (opts : Byte) :
    r.afterFrame opts = { r with txSeq := if opts.extractLsb' 0 2 = 0 then r.txSeq + 1 else r.txSeq } := by
  simp only [Regs.afterFrame, optsClass_text_iff]
  split <;> rfl

section pipeline
variable (params : Params) (r : Regs) (receiverId opts : Byte) (payload : ByteString)

theorem rawPayload_eq : rawPayload params r receiverId opts payload =
    if opts.extractLsb' 0 2 = 0 then buildMessage params r receiverId payload else payload := by
  simp only [rawPayload, optsClass_text_iff]

theorem framedBody_eq : framedBody params r receiverId opts payload =
    if opts.extractLsb' 2 2 = 1 then rleCompress (rawPayload params r receiverId opts payload) r.rleEsc
    else rawPayload params r receiverId opts payload := by
  simp only [framedBody, optsCompression_rle_iff]

theorem frameKey_eq : frameKey r opts = if opts.extractLsb' 4 1 = 1 then r.txKey else 0x00 := by
  simp only [frameKey, optsXor_iff]

theorem wirePayload_eq : wirePayload params r receiverId opts payload =
    if opts.extractLsb' 4 1 = 1 then (framedBody params r receiverId opts payload).map (fun b => b ^^^ r.txKey)
    else framedBody params r receiverId opts payload := by
  simp only [wirePayload, optsXor_iff, xorBytes]

/-- Without compression both lengths are those of the raw payload (42_frame_encoder.md R135). -/
theorem framedBody_of_uncompressed (h : opts.extractLsb' 2 2 = 0) :
    framedBody params r receiverId opts payload = rawPayload params r receiverId opts payload := by
  rw [framedBody_eq, if_neg (by rw [h]; decide)]

theorem rawPayload_length : (rawPayload params r receiverId opts payload).length =
    if opts.extractLsb' 0 2 = 0 then 12 + params.textCap else payload.length := by
  rw [rawPayload_eq]
  split
  · exact buildMessage_length ..
  · rfl

theorem wirePayload_length :
    (wirePayload params r receiverId opts payload).length = (framedBody params r receiverId opts payload).length := by
  unfold wirePayload
  split
  · exact xorBytes_length ..
  · rfl

/-- A frame holds at least its header. -/
theorem wireFrame_ne_nil : wireFrame params r receiverId opts payload ≠ [] := List.cons_ne_nil _ _

end pipeline

/-! ### What a TX_ENCODE does (42_frame_encoder.md R130, R131) -/

theorem exec_txEncode_framed (receiverId opts : Byte) (payload : ByteString) (s : State) :
    exec (.txEncode receiverId opts 1 payload) s = .next (encodeFramed receiverId opts payload s) := rfl

theorem exec_txEncode_of_bad_useHeader {useHeader : Byte} (h0 : useHeader ≠ 0) (h1 : useHeader ≠ 1) (receiverId opts : Byte)
    (payload : ByteString) (s : State) :
    exec (.txEncode receiverId opts useHeader payload) s = .next (s.raise .badOperand) := by
  rw [exec, execTxEncode, if_neg h0, if_neg h1]

/-- Settles O38: the two arms of TX_ENCODE that do not look at the options. -/
theorem rawWriteAppendsThePayload : Obligations.RawWriteAppendsThePayload := by
  intro s receiverId opts payload
  exact ⟨rfl, fun useHeader h0 h1 => exec_txEncode_of_bad_useHeader h0 h1 receiverId opts payload s⟩

/-- Settles O39, by the three outcomes of the pipeline (`encodeFramed_cases`). -/
theorem framedEncodeFollowsThePipeline : Obligations.FramedEncodeFollowsThePipeline := by
  intro s receiverId opts payload raw body wire key hraw hbody hwire hkey
  rw [← rawPayload_eq s.params s.regs receiverId] at hraw
  rw [hraw, ← framedBody_eq] at hbody
  rw [hbody, ← wirePayload_eq] at hwire
  rw [← frameKey_eq] at hkey
  simp only [exec_txEncode_framed, ← encoderRefuses_iff]
  rcases encodeFramed_cases receiverId opts payload s with ⟨hr, h⟩ | ⟨hr, hlen, h⟩ | ⟨hr, hlen, h⟩
  · rw [h, if_pos hr]
    rfl
  · rw [h, if_neg (by simp [hr]), if_pos (by rwa [hbody])]
    rfl
  · rw [h, if_neg (by simp [hr]), if_neg (by rw [hbody]; exact Nat.not_lt.2 hlen), hraw, hbody, hwire, hkey,
      Regs.afterFrame_eq]
    rfl

/-- Settles O42: of the ways a TX_ENCODE ends (`CommandEffect`), a frame alone writes a register. -/
theorem txSeqCountsTextFrames : Obligations.TxSeqCountsTextFrames := by
  intro s t receiverId opts useHeader payload h
  cases CommandEffect.of_exec h with
  | refuse => simp
  | answer => simp
  | rawWrite => simp
  | frame =>
    have hemits : s.tx ++ wireFrame s.params s.regs receiverId opts payload ≠ s.tx :=
      fun hsame => wireFrame_ne_nil _ _ _ _ _ (List.append_right_eq_self.1 hsame)
    simp [Regs.afterFrame_eq, hemits]

/-! ### The emitted frame (42_frame_encoder.md R135, R132) -/

/-- The frame a framed TX_ENCODE emits, as header and payload. -/
def emittedFrame (params : Params) (r : Regs) (receiverId opts : Byte) (payload : ByteString) : Frame :=
  { header := frameHeader params r receiverId opts payload, payload := wirePayload params r receiverId opts payload }

theorem emittedFrame_bytes (params : Params) (r : Regs) (receiverId opts : Byte) (payload : ByteString) :
    (emittedFrame params r receiverId opts payload).bytes = wireFrame params r receiverId opts payload := rfl

theorem frameHeader_dataLength {params : Params} {r : Regs} {receiverId opts : Byte} {payload : ByteString}
    (h : hdrLen + (framedBody params r receiverId opts payload).length ≤ maxU32) :
    (frameHeader params r receiverId opts payload).dataLength.toNat = (framedBody params r receiverId opts payload).length :=
  lengthWord_toNat (by unfold hdrLen maxU32 at h; omega)

theorem frameHeader_uncompressedLength {params : Params} {payload : ByteString} (hp : payload.length < 4294967296)
    (hcap : 12 + params.textCap < 4294967296) (r : Regs) (receiverId opts : Byte) :
    (frameHeader params r receiverId opts payload).uncompressedLength.toNat =
      (rawPayload params r receiverId opts payload).length := by
  refine lengthWord_toNat ?_
  rw [rawPayload_length]
  split <;> assumption

/-- A TX_ENCODE that appends bytes with `useHeader` set has passed both refusals and appended one frame. -/
theorem exec_txEncode_emits {s t : State} {receiverId opts : Byte} {payload frame : ByteString}
    (h : exec (.txEncode receiverId opts 1 payload) s = .next t) (htx : t.tx = s.tx ++ frame) (hne : frame ≠ []) :
    encoderRefuses opts = false ∧ hdrLen + (framedBody s.params s.regs receiverId opts payload).length ≤ maxU32 ∧
      frame = (emittedFrame s.params s.regs receiverId opts payload).bytes ∧
      t.responses = s.answered
        (0x00 :: le32 (BitVec.ofNat 32 (20 + (framedBody s.params s.regs receiverId opts payload).length))) := by
  have hnone : ¬ s.tx = s.tx ++ frame := fun hsame => hne (List.append_right_eq_self.1 hsame.symm)
  cases CommandEffect.of_exec h with
  | refuse => exact absurd htx hnone
  | answer => exact absurd htx hnone
  | frame hr hlen => exact ⟨hr, hlen, (List.append_cancel_left htx).symm, rfl⟩

/-- Settles O41: the frame's bytes parse as the header it was built with. -/
theorem emittedHeaderRelations : Obligations.EmittedHeaderRelations := by
  intro s t receiverId opts payload frame hp hcap hexec htx hne
  obtain ⟨_, hlen, rfl, hresponses⟩ := exec_txEncode_emits hexec htx hne
  have hparse : parseHeader (emittedFrame s.params s.regs receiverId opts payload).bytes =
      frameHeader s.params s.regs receiverId opts payload := parseHeader_bytes _ _
  rw [hparse, frameHeader_dataLength hlen, frameHeader_uncompressedLength hp hcap, emittedFrame_bytes, wireFrame_length]
  refine ⟨rfl, rfl, rfl, rfl, rfl, rfl, rawPayload_length .., fun h => ?_, hresponses⟩
  rw [frameHeader, framedBody_of_uncompressed _ _ _ _ _ h]

/-! ### From one block to another (42_frame_encoder.md R136) -/

theorem xorBytes_cancel (x : ByteString) (k : Byte) : xorBytes (xorBytes x k) k = x := by
  simp [xorBytes, Function.comp_def]

/-- The receiver's decipher undoes the encoder's cipher, by the key the header carries (44_xor_cipher.md R172). -/
theorem decipher_wirePayload (params : Params) (r : Regs) (receiverId opts : Byte) (payload : ByteString) :
    decipher (wirePayload params r receiverId opts payload) (frameHeader params r receiverId opts payload) =
      framedBody params r receiverId opts payload := by
  unfold decipher wirePayload frameHeader frameKey
  cases optsXor opts with
  | false => rfl
  | true => exact xorBytes_cancel ..

section peer
variable {params peer : Params} {r q : Regs} {receiverId opts : Byte} {payload : ByteString}

/-- The peer's decompression undoes the encoder's, where it uses the same escape byte and can allocate the buffer. -/
theorem decompress_framedBody (hp : payload.length < 4294967296) (hcap : 12 + params.textCap < 4294967296)
    (hadm : admits peer.maxDecode (rawPayload params r receiverId opts payload).length = true) :
    decompress peer r.rleEsc (framedBody params r receiverId opts payload) (frameHeader params r receiverId opts payload) =
      .ok (rawPayload params r receiverId opts payload) := by
  rw [decompress, frameHeader_uncompressedLength hp hcap, framedBody, frameHeader]
  by_cases hrle : optsCompression opts = .rle
  · simp only [hrle, if_true, hadm, rleDecompress_rleCompress]
  · simp only [hrle, if_false]

/-- The encoder's record passes the tests of a peer with the same text capacity and divisor. -/
theorem recordCheck_rawPayload (htext : peer.textCap = params.textCap) (h : Header) (hopts : h.decodeOpts = opts) :
    recordCheck peer r.chkDiv.toNat h (rawPayload params r receiverId opts payload) =
      .ok (rawPayload params r receiverId opts payload) := by
  rw [recordCheck, hopts, rawPayload]
  by_cases hclass : optsClass opts = .text
  · have hmsg : msgLen peer = msgLen params := by rw [msgLen, msgLen, htext]
    have hlast : msgLen params - 1 = 11 + params.textCap := by unfold msgLen; omega
    simp only [hclass, if_true, hmsg, buildMessage_length, hlast, buildMessage_verifies, ne_eq, not_true_eq_false, if_false]
  · simp only [hclass, if_false, ne_eq, not_false_eq_true, if_true]

theorem emittedFrame_complete (h : hdrLen + (framedBody params r receiverId opts payload).length ≤ maxU32) :
    (emittedFrame params r receiverId opts payload).complete :=
  (wirePayload_length ..).trans (frameHeader_dataLength h).symm

theorem emittedFrame_accepted {station : Byte}
    (h : station = receiverId ∨ opts.extractLsb' 0 2 = 1 ∨ opts.extractLsb' 0 2 = 2) :
    (emittedFrame params r receiverId opts payload).accepted station :=
  ⟨rfl, rfl, h.imp_left Eq.symm⟩

/-- A peer that agrees on the escape byte, the divisor and the text capacity and is addressed delivers what was encoded. -/
theorem emittedFrame_verdict (hu : encoderRefuses opts = false) (hp : payload.length < 4294967296)
    (hcap : 12 + params.textCap < 4294967296) (hesc : q.rleEsc = r.rleEsc) (hdiv : q.chkDiv = r.chkDiv)
    (htext : peer.textCap = params.textCap)
    (haddr : q.stationId = receiverId ∨ opts.extractLsb' 0 2 = 1 ∨ opts.extractLsb' 0 2 = 2)
    (hadm : admits peer.maxDecode (rawPayload params r receiverId opts payload).length = true) :
    (emittedFrame params r receiverId opts payload).verdict peer q = .ok (rawPayload params r receiverId opts payload) := by
  have hsupported : ¬ optsUnsupported opts = true := fun h => by simp [encoderRefuses, h] at hu
  rw [Frame.verdict_of_supported (emittedFrame_accepted haddr) hsupported, hesc, hdiv, emittedFrame, decipher_wirePayload,
    decompress_framedBody hp hcap hadm]
  exact recordCheck_rawPayload htext _ rfl

end peer

/-- Settles O43: the peer receives one complete accepted frame in pieces (O33), and its verdict is what was encoded. -/
theorem encodedFrameIsDispatchedByThePeer : Obligations.EncodedFrameIsDispatchedByThePeer := by
  intro a a' b receiverId opts payload frame chunks hp hcap hexec htx hne hidle hesc hdiv htext haddr hflat hno hadm
  obtain ⟨hu, hlen, rfl, _⟩ := exec_txEncode_emits hexec htx hne
  rw [← rawPayload_length a.params a.regs receiverId] at hadm
  have hverdict := emittedFrame_verdict hu hp hcap hesc hdiv htext haddr hadm
  have hframes : ∀ f ∈ [emittedFrame a.params a.regs receiverId opts payload], f.complete ∧ f.accepted b.regs.stationId := by
    simpa using ⟨emittedFrame_complete hlen, emittedFrame_accepted haddr⟩
  rw [dispatchIsIndependentOfChunking b _ chunks hidle hframes (by simpa using hflat) hno, List.foldl_cons, List.foldl_nil,
    State.report_of_ok hverdict]
  have hopts : (emittedFrame a.params a.regs receiverId opts payload).header.decodeOpts = opts := rfl
  simp only [hopts, rawPayload_eq, optsClass_text_iff, optsClass_audio_iff]
  split_ifs <;> rfl

end Sys2Proof.Machine
end

section
/-! Family 43_rle_codec.md: the compressor run by run and how long its output is, the decoder's answer by the items of its input,
and what the two commands answer. -/

namespace Sys2Proof.Machine

/-! ### The compressor, run by run (43_rle_codec.md R150) -/

/-- A run ends at another byte, at the end of the input, or at 255 bytes. -/
theorem rleScan_of_run_ends {b : Byte} {n : Nat} {rest : ByteString} (h : n < rleMaxCount → rest.head? ≠ some b) (e : Byte) :
    rleScan e b n rest = rleItem e b n ++ rleCompress rest e := by
  cases rest with
  | nil => simp [rleScan, rleCompress]
  | cons c rest =>
    have hends : ¬ (c = b ∧ n < rleMaxCount) := fun ⟨hcb, hn⟩ => h hn (congrArg some hcb)
    rw [rleScan, if_neg hends, rleCompress]

/-- The scan counts a run to its end, `n` bytes of which it has counted already. -/
theorem rleScan_replicate {b : Byte} {n k : Nat} {rest : ByteString} (hn : n + k ≤ rleMaxCount)
    (h : n + k < rleMaxCount → rest.head? ≠ some b) (e : Byte) :
    rleScan e b n (List.replicate k b ++ rest) = rleItem e b (n + k) ++ rleCompress rest e := by
  induction k generalizing n with
  | zero => exact rleScan_of_run_ends h e
  | succ k ih =>
    have hnext : n + 1 + k = n + (k + 1) := by omega
    rw [← hnext] at hn h ⊢
    rw [List.replicate_succ, List.cons_append, rleScan, if_pos ⟨rfl, by omega⟩, ih hn h]

theorem rleCompress_run {b : Byte} {n : Nat} {rest : ByteString} (h1 : 1 ≤ n) (hn : n ≤ rleMaxCount)
    (h : n < rleMaxCount → rest.head? ≠ some b) (e : Byte) :
    rleCompress (List.replicate n b ++ rest) e = rleItem e b n ++ rleCompress rest e := by
  obtain ⟨k, rfl⟩ := Nat.exists_eq_add_of_le h1
  rw [Nat.add_comm, List.replicate_succ, List.cons_append, rleCompress, Nat.add_comm]
  exact rleScan_replicate hn h e

/-- Settles O48: a run at a time, and the items the compressor emits. -/
theorem rleCompressEmitsWellFormedItems : Obligations.RleCompressEmitsWellFormedItems :=
  ⟨fun _ => rfl, fun e _ _ _ h1 hn h => rleCompress_run h1 hn h e, exists_items_rleCompress⟩

/-! ### How long a compressed string is (43_rle_codec.md R155) -/

theorem rleItem_length_escape (e : Byte) (n : Nat) : (rleItem e e n).length = 3 := by
  rw [rleItem, if_pos (.inl rfl)]
  rfl

/-- A run of another byte than the escape costs no more than itself. -/
theorem rleItem_length_le_of_ne {e b : Byte} (hb : b ≠ e) (n : Nat) : (rleItem e b n).length ≤ n := by
  rw [rleItem]
  split
  · rename_i htoken
    exact (by decide : 3 ≤ rleMinRun).trans (htoken.resolve_left hb)
  · exact List.length_replicate.le

theorem rleItem_length_le (e b : Byte) {n : Nat} (h1 : 1 ≤ n) : (rleItem e b n).length ≤ 3 * n := by
  by_cases hb : b = e
  · rw [hb, rleItem_length_escape]
    omega
  · have hrun := rleItem_length_le_of_ne hb n
    omega

/-- Only the token of a single escape byte is three times as long as its run. -/
theorem rleItem_length_lt {e b : Byte} {n : Nat} (h1 : 1 ≤ n) (h : ¬ (n = 1 ∧ b = e)) : (rleItem e b n).length < 3 * n := by
  by_cases hb : b = e
  · have hmore : n ≠ 1 := fun hn => h ⟨hn, hb⟩
    rw [hb, rleItem_length_escape]
    omega
  · have hrun := rleItem_length_le_of_ne hb n
    omega

/-- Less than three times as long, but for a single escape byte at the end: two adjacent escape bytes share one token, so a run that
ends before a last escape byte is not itself a single escape byte. -/
theorem rleScan_length_lt {e b : Byte} {n : Nat} {x : ByteString} (h1 : 1 ≤ n) (h : ¬ (n = 1 ∧ b = e ∧ x = [])) :
    (rleScan e b n x).length < 3 * (n + x.length) := by
  induction x generalizing b n with
  | nil => exact rleItem_length_lt h1 fun ⟨hn, hb⟩ => h ⟨hn, hb, rfl⟩
  | cons c x ih =>
    rw [rleScan, List.length_cons]
    split
    · have hgrown := @ih b (n + 1) (by omega) (by omega)
      omega
    · rename_i hends
      rw [List.length_append]
      by_cases hlast : c = e ∧ x = []
      · obtain ⟨rfl, rfl⟩ := hlast
        have hrun : (rleItem c b n).length < 3 * n :=
          rleItem_length_lt h1 fun ⟨hn, hb⟩ => hends ⟨hb.symm, hn ▸ by decide⟩
        have hescape : (rleScan c c 1 []).length ≤ 3 * 1 := rleItem_length_le c c le_rfl
        simp only [List.length_nil]
        omega
      · have hrun := rleItem_length_le e b h1
        have hrest := @ih c 1 le_rfl fun ⟨_, hsingle⟩ => hlast hsingle
        omega

/-- Only nothing and a single escape byte become three times as long. -/
theorem rleCompress_length_lt {x : ByteString} {e : Byte} (hnil : x ≠ []) (hsingle : x ≠ [e]) :
    (rleCompress x e).length < 3 * x.length := by
  cases x with
  | nil => exact absurd rfl hnil
  | cons b x =>
    rw [rleCompress, List.length_cons, Nat.add_comm]
    exact rleScan_length_lt le_rfl fun ⟨_, hb, hx⟩ => hsingle (by rw [hb, hx])

theorem rleCompress_singleton_escape (e : Byte) : rleCompress [e] e = [e, 1, e] := by
  simp [rleCompress, rleScan, rleItem]

theorem rleCompress_length_eq_iff (x : ByteString) (e : Byte) :
    (rleCompress x e).length = 3 * x.length ↔ x = [] ∨ x = [e] := by
  constructor
  · intro hlen
    by_contra! hne
    exact (rleCompress_length_lt hne.1 hne.2).ne hlen
  · rintro (rfl | rfl)
    · rfl
    · rw [rleCompress_singleton_escape]
      rfl

theorem rleCompress_length_le (x : ByteString) (e : Byte) : (rleCompress x e).length ≤ 3 * x.length := by
  by_cases h : x = [] ∨ x = [e]
  · exact ((rleCompress_length_eq_iff x e).2 h).le
  · obtain ⟨hnil, hsingle⟩ := not_or.1 h
    exact (rleCompress_length_lt hnil hsingle).le

theorem rleScan_length_le_of_not_mem {e b : Byte} (n : Nat) {x : ByteString} (h : e ∉ b :: x) :
    (rleScan e b n x).length ≤ n + x.length := by
  induction x generalizing b n with
  | nil => exact rleItem_length_le_of_ne (List.ne_of_not_mem_cons h).symm n
  | cons c x ih =>
    have hx : e ∉ c :: x := List.not_mem_of_not_mem_cons h
    rw [rleScan, List.length_cons]
    split
    · rename_i hgrow
      have hgrown := ih (n + 1) (hgrow.1 ▸ hx : e ∉ b :: x)
      omega
    · have hrun := rleItem_length_le_of_ne (List.ne_of_not_mem_cons h).symm n
      have hrest := ih 1 hx
      rw [List.length_append]
      omega

theorem rleCompress_length_le_of_not_mem {x : ByteString} {e : Byte} (h : e ∉ x) : (rleCompress x e).length ≤ x.length := by
  cases x with
  | nil => exact le_rfl
  | cons b x => exact (rleScan_length_le_of_not_mem 1 h).trans_eq (Nat.add_comm ..)

/-- Settles O47: the three bounds of R155. -/
theorem rleSizeBounds : Obligations.RleSizeBounds := fun x e =>
  ⟨rleCompress_length_le x e, rleCompress_length_eq_iff x e, rleCompress_length_le_of_not_mem⟩

/-- Settles O46: the round trip holds whatever the length. -/
theorem rleRoundTrip : Obligations.RleRoundTrip := fun x e _ => rleDecompress_rleCompress x e

/-! ### The decoder's answer (43_rle_codec.md R151) -/

/-- A well-formed item that does not fit is where the decoder stops. -/
theorem rleExpand_item_overflow {e : Byte} {limit : Nat} {out : ByteString} {i : RleItem} (hi : i.valid e)
    (hl : limit < (out ++ i.plain).length) (rest : ByteString) :
    rleExpand e limit out (i.wire e ++ rest) = .error .rleOverflow := by
  cases i with
  | literal b =>
    have hb : b ≠ e := hi
    simp only [RleItem.wire, RleItem.plain, List.cons_append, List.nil_append] at hl ⊢
    rw [rleExpand.eq_def]
    simp only
    rw [if_pos hb, if_pos hl]
  | run n v =>
    have hn : n ≠ 0 := hi
    simp only [RleItem.wire, RleItem.plain, List.cons_append, List.nil_append] at hl ⊢
    rw [rleExpand, if_neg (not_not.2 rfl), if_neg hn, if_pos hl]

/-- Items that stand for too much: the decoder stops at the first that does not fit. -/
theorem rleExpand_items_overflow {e : Byte} {limit : Nat} {items : List RleItem} {out : ByteString} (hv : ∀ i ∈ items, i.valid e)
    (hout : out.length ≤ limit) (hl : limit < (out ++ items.flatMap RleItem.plain).length) (rest : ByteString) :
    rleExpand e limit out (items.flatMap (RleItem.wire e) ++ rest) = .error .rleOverflow := by
  induction items generalizing out with
  | nil => exact absurd (by simpa using hl) (Nat.not_lt.2 hout)
  | cons i items ih =>
    obtain ⟨hi, hv⟩ := List.forall_mem_cons.1 hv
    rw [List.flatMap_cons, ← List.append_assoc] at hl
    rw [List.flatMap_cons, List.append_assoc]
    by_cases hfirst : (out ++ i.plain).length ≤ limit
    · rw [rleExpand_item hi hfirst, ih hv hfirst hl]
    · exact rleExpand_item_overflow hi (Nat.lt_of_not_le hfirst) _

section items
variable {e : Byte} {limit : Nat} {items : List RleItem} (hv : ∀ i ∈ items, i.valid e)
include hv

theorem rleDecompress_items_append (hl : (items.flatMap RleItem.plain).length ≤ limit) (rest : ByteString) :
    rleDecompress (items.flatMap (RleItem.wire e) ++ rest) e limit =
      rleExpand e limit (items.flatMap RleItem.plain) rest :=
  rleExpand_items hv hl rest

theorem rleDecompress_items (hl : (items.flatMap RleItem.plain).length ≤ limit) :
    rleDecompress (items.flatMap (RleItem.wire e)) e limit =
      if (items.flatMap RleItem.plain).length < limit then .error .rleShort else .ok (items.flatMap RleItem.plain) := by
  have hread := rleDecompress_items_append hv hl []
  rwa [List.append_nil, rleExpand] at hread

theorem rleDecompress_items_overflow (hl : limit < (items.flatMap RleItem.plain).length) (rest : ByteString) :
    rleDecompress (items.flatMap (RleItem.wire e) ++ rest) e limit = .error .rleOverflow :=
  rleExpand_items_overflow hv (Nat.zero_le _) hl rest

end items

section token
variable (e : Byte) (limit : Nat) (out : ByteString)

theorem rleExpand_escape_end : rleExpand e limit out [e] = .error .rleTruncated := by
  simp [rleExpand]

theorem rleExpand_escape_count_end (n : Byte) : rleExpand e limit out [e, n] = .error .rleTruncated := by
  simp [rleExpand]

theorem rleExpand_zeroCount (v : Byte) (rest : ByteString) :
    rleExpand e limit out (e :: 0x00 :: v :: rest) = .error .rleZeroCount := by
  simp [rleExpand]

end token

/-! ### The commands' answers (43_rle_codec.md R152, R153) -/

theorem exec_rleDecompress_of_error {esc : Byte} {expected : Word} {input : ByteString} {st : Status}
    (h : rleDecompress input esc expected.toNat = .error st) (s : State) :
    exec (.rleDecompress esc expected input) s = .next { s with responses := s.answered [st.code] } := by
  simp only [exec, execRleDecompress, h]
  rfl

theorem exec_rleDecompress_of_ok {esc : Byte} {expected : Word} {input out : ByteString}
    (h : rleDecompress input esc expected.toNat = .ok out) (s : State) :
    exec (.rleDecompress esc expected input) s =
      .next { s with responses := s.answered (0x00 :: (le32 (lengthWord out.length) ++ out)) } := by
  simp only [exec, execRleDecompress, h, State.ret, State.respond, responseBytes, List.flatMap_cons, List.flatMap_nil,
    List.append_nil]
  rfl

/-- Settles O45: the items are read up to the first that does not fit (`rleExpand_items_overflow`), or all of them
(`rleExpand_items`), and what follows them decides. -/
theorem rleDecompressAnswersByItems : Obligations.RleDecompressAnswersByItems := by
  intro s esc expected items hv
  refine ⟨fun hexact => ?_, fun hshort => ?_, fun hover rest => ?_, fun hfits => ⟨?_, fun n => ?_, fun v rest => ?_⟩⟩
  · have hok := rleDecompress_items hv hexact.le
    rw [if_neg hexact.not_lt] at hok
    have hword : lengthWord expected.toNat = expected := BitVec.ofNat_toNat ..
    rw [exec_rleDecompress_of_ok hok, hexact, hword]
  · have herr := rleDecompress_items hv hshort.le
    rw [if_pos hshort] at herr
    exact exec_rleDecompress_of_error herr s
  · exact exec_rleDecompress_of_error (rleDecompress_items_overflow hv hover rest) s
  · exact exec_rleDecompress_of_error ((rleDecompress_items_append hv hfits _).trans (rleExpand_escape_end ..)) s
  · exact exec_rleDecompress_of_error ((rleDecompress_items_append hv hfits _).trans (rleExpand_escape_count_end ..)) s
  · exact exec_rleDecompress_of_error ((rleDecompress_items_append hv hfits _).trans (rleExpand_zeroCount ..)) s

theorem exec_rleCompress (esc : Byte) (input : ByteString) (s : State) :
    exec (.rleCompress esc input) s = if maxU32 < (rleCompress input esc).length
      then .next { s with responses := s.answered [0x05] }
      else .next { s with responses := s.answered (0x00 :: encodeBytes (rleCompress input esc)) } := by
  simp only [exec, execRleCompress, gt_iff_lt]
  split
  · rfl
  · simp [State.ret, State.respond, responseBytes, Result.encode, State.answered, Status.code]

/-- Settles O44: the command's two outcomes, and the bound of R155. -/
theorem rleCompressAnswers : Obligations.RleCompressAnswers := by
  intro s esc input
  refine ⟨exec_rleCompress esc input s, fun hlong => ?_⟩
  have hbound := rleCompress_length_le input esc
  omega

end Sys2Proof.Machine
end

section
/-! Family 44_xor_cipher.md: the cipher byte by byte and key after key, and what XOR_APPLY answers. -/

namespace Sys2Proof.Machine

/-! ### The cipher (44_xor_cipher.md R170, R172) -/

theorem byteAt_xorBytes {x : ByteString} {i : Nat} (h : i < x.length) (k : Byte) :
    byteAt (xorBytes x k) i = byteAt x i ^^^ k := by
  simp [byteAt, xorBytes, h]

theorem xorBytes_xorBytes (x : ByteString) (k1 k2 : Byte) : xorBytes (xorBytes x k1) k2 = xorBytes x (k1 ^^^ k2) := by
  simp only [xorBytes, List.map_map, Function.comp_def, BitVec.xor_assoc]

/-- Settles O50: the cipher undoes itself because equal keys cancel. -/
theorem xorCipherIsAnInvolution : Obligations.XorCipherIsAnInvolution := fun x k1 k2 =>
  ⟨xorBytes_length x k1, xorBytes_cancel x k1, xorBytes_xorBytes x k1 k2⟩

/-! ### The command's answer (44_xor_cipher.md R171) -/

/-- The counted bytes of the answer are the ciphered input; its length is counted as the input's. -/
theorem exec_xorApply (key : Byte) (input : ByteString) (s : State) :
    exec (.xorApply key input) s = .next { s with
      responses := s.answered (0x00 :: (le32 (lengthWord input.length) ++ xorBytes input key)) } := by
  simp [exec, execXorApply, State.ret, State.respond, responseBytes, Result.encode, encodeBytes, State.answered, Status.code]

/-- Settles O49: the answered string is the ciphered input. -/
theorem xorApplyAnswers : Obligations.XorApplyAnswers := fun s key input =>
  ⟨xorBytes input key, exec_xorApply key input s, xorBytes_length input key, fun _ hi => byteAt_xorBytes hi key⟩

end Sys2Proof.Machine
end

section
/-! Family 45_checksum.md: the checksum as the natural sum reduced, what it does not depend on, and what the two commands answer. -/

namespace Sys2Proof.Machine

/-! ### The reduced sum (45_checksum.md R180) -/

theorem byteSum_eq_sum (x : ByteString) : byteSum x = (x.map BitVec.toNat).sum := by
  induction x with
  | nil => rfl
  | cons b x ih => rw [byteSum_cons, ih, List.map_cons, List.sum_cons]

/-- For a legal divisor no bit is lost: the remainder fits the byte. -/
theorem checksumCompute_toNat {d : Nat} (hpos : 1 ≤ d) (hle : d ≤ 256) (x : ByteString) :
    (checksumCompute x d).toNat = byteSum x % d := by
  have hlt : byteSum x % d < d := Nat.mod_lt _ hpos
  rw [checksumCompute, BitVec.toNat_ofNat, Nat.mod_eq_of_lt (by omega)]

/-- An accumulator that reduces after every byte holds the reduced sum, wherever it starts. -/
theorem foldl_reduce_eq (x : ByteString) (d n : Nat) :
    x.foldl (fun acc b => (acc + b.toNat) % d) (n % d) = (n + byteSum x) % d := by
  induction x generalizing n with
  | nil => rfl
  | cons b x ih => rw [List.foldl_cons, Nat.mod_add_mod, ih, byteSum_cons, Nat.add_assoc]

/-- Settles O52: the checksum is the reduced `byteSum`, and so is what the accumulator holds from 0. -/
theorem checksumIsTheReducedSum : Obligations.ChecksumIsTheReducedSum := by
  intro x d hpos hle
  have hsum := checksumCompute_toNat hpos hle x
  have hacc := foldl_reduce_eq x d 0
  rw [Nat.zero_mod, Nat.zero_add] at hacc
  refine ⟨?_, ?_, ?_, ?_⟩
  · rw [hsum, byteSum_eq_sum]
  · rw [hsum]
    exact Nat.mod_lt _ hpos
  · rw [hsum, hacc]
  · rw [checksumCompute, byteSum_nil, Nat.zero_mod]
    rfl

/-! ### What the checksum does not depend on (45_checksum.md R183) -/

theorem checksumCompute_congr {x y : ByteString} (h : byteSum x = byteSum y) (d : Nat) :
    checksumCompute x d = checksumCompute y d := by
  rw [checksumCompute, checksumCompute, h]

theorem byteSum_perm {x y : ByteString} (h : x.Perm y) : byteSum x = byteSum y := by
  rw [byteSum_eq_sum, byteSum_eq_sum]
  exact (h.map BitVec.toNat).sum_eq

/-- Settles O53: in each case the sum of the bytes is the same; the encoder's records verify by `buildMessage_verifies`. -/
theorem checksumIgnoresZerosAndOrder : Obligations.ChecksumIgnoresZerosAndOrder := by
  refine ⟨fun front back d => ?_, buildMessage_verifies, fun x y d h => checksumCompute_congr (byteSum_perm h) d,
    fun front middle back b c b' c' d h => ?_⟩
  · apply checksumCompute_congr
    simp [byteSum_append]
  · apply checksumCompute_congr
    simp only [byteSum_append, byteSum_cons, byteSum_nil]
    omega

/-! ### The commands' answers (45_checksum.md R181, R182) -/

/-- The refused divisors are 0 and those above 256. -/
theorem ite_legalDivisor {α : Type} (d : Half) (legal refused : α) :
    (if legalDivisor d then legal else refused) = if d.toNat = 0 ∨ 256 < d.toNat then refused else legal := by
  have hlegal : legalDivisor d = true ↔ ¬ (d.toNat = 0 ∨ 256 < d.toNat) := by
    rw [legalDivisor, decide_eq_true_iff, not_or, Nat.not_lt]
  rw [if_congr hlegal rfl rfl, ite_not]

theorem exec_chkCompute (divisor : Half) (input : ByteString) (s : State) :
    exec (.chkCompute divisor input) s = if divisor.toNat = 0 ∨ 256 < divisor.toNat
      then .next { s with responses := s.answered [0x03] }
      else .next { s with responses := s.answered [0x00, checksumCompute input divisor.toNat] } :=
  ite_legalDivisor divisor _ _

theorem exec_chkVerify (divisor : Half) (expected : Byte) (input : ByteString) (s : State) :
    exec (.chkVerify divisor expected input) s = if divisor.toNat = 0 ∨ 256 < divisor.toNat
      then .next { s with responses := s.answered [0x03] }
      else .next { s with
        responses := s.answered [0x00, if checksumCompute input divisor.toNat = expected then 0x01 else 0x00] } :=
  ite_legalDivisor divisor _ _

/-- Settles O51: both commands test the divisor first, and refuse all but the legal ones (`ite_legalDivisor`). -/
theorem checksumCommandsAnswer : Obligations.ChecksumCommandsAnswer := fun s divisor expected input =>
  ⟨exec_chkCompute divisor input s, exec_chkVerify divisor expected input s⟩

end Sys2Proof.Machine
end

section
/-! Family 46_streaming_buffer.md: what reading and removing do to the FIFO, what each of its commands answers, how a command can move
the cursors, and from these the invariant of every step and the order of the bytes over a run of commands. -/

namespace Sys2Proof.Machine

theorem admits_eq_true_iff {l : Limit} {n : Nat} : admits l n = true ↔ ∀ c, l = some c → n ≤ c := by
  cases l <;> simp [admits]

/-! ### Reading from the FIFO and removing its head (46_streaming_buffer.md R192, R193) -/

theorem Sb.readCount_le (b : Sb) (n : Nat) : b.readCount n ≤ b.data.length - b.rd := Nat.min_le_right ..

/-- A read splits the unread bytes in two: those returned, and those still unread. -/
theorem Sb.readBytes_append_unread (b : Sb) (n : Nat) :
    b.readBytes n ++ (b.afterRead n).data.drop (b.afterRead n).rd = b.data.drop b.rd := by
  rw [Sb.readBytes, Sb.afterRead, ← List.drop_drop, List.take_append_drop]

/-- Of the unread bytes, removing a chunk loses those that lie in the chunk. -/
theorem Sb.removeChunk_unread (b : Sb) (k : Nat) :
    (b.removeChunk k).data.drop (b.removeChunk k).rd = b.data.drop (max b.rd k) := by
  have hcursor : k + (if b.rd ≤ k then 0 else b.rd - k) = max b.rd k := by split <;> omega
  rw [Sb.removeChunk, List.drop_drop, hcursor]

/-! ### The commands' answers (46_streaming_buffer.md R190 to R194) -/

theorem exec_sbReset (s : State) :
    exec .sbReset s = .next { s with sb := { data := [], rd := 0 }, responses := s.answered [0x00] } := rfl

theorem exec_sbReadPos (s : State) :
    exec .sbReadPos s = .next { s with responses := s.answered (0x00 :: le32 (BitVec.ofNat 32 (min s.sb.rd 4294967295))) } := rfl

/-- Settles O54, by the equations of the two commands. -/
theorem fifoResetAndPosition : Obligations.FifoResetAndPosition := fun s => ⟨exec_sbReset s, exec_sbReadPos s⟩

theorem exec_sbAppend_of_admits {s : State} {data : ByteString} (h : admits s.params.sbCap (s.sb.data.length + data.length) = true) :
    exec (.sbAppend data) s = .next { s with
      sb := { data := s.sb.data ++ data, rd := s.sb.rd }, responses := s.answered [0x00] } :=
  if_pos h

theorem exec_sbAppend_of_full {s : State} {data : ByteString} (h : admits s.params.sbCap (s.sb.data.length + data.length) = false) :
    exec (.sbAppend data) s = .next { s with responses := s.answered [0x0A] } :=
  if_neg (Bool.eq_false_iff.1 h)

/-- Settles O55: the two outcomes are those of the capacity test, and neither writes a part of the bytes. -/
theorem fifoAppendIsAllOrNothing : Obligations.FifoAppendIsAllOrNothing := fun _ _ =>
  ⟨fun hfits => exec_sbAppend_of_admits (admits_eq_true_iff.2 hfits),
    fun c hcap hlt => exec_sbAppend_of_full (admits_eq_false.2 ⟨c, hcap, hlt⟩)⟩

theorem exec_sbRead (n : Word) (s : State) :
    exec (.sbRead n) s = .next { s with
      sb := s.sb.afterRead n.toNat, responses := s.answered (0x00 :: encodeBytes (s.sb.readBytes n.toNat)) } := by
  simp [exec, execSbRead, State.setSb, State.ret, State.respond, responseBytes, Result.encode, State.answered, Status.code]

/-- Settles O56: the bytes returned are the unread ones up to `maxLength`, and the cursor moves by their number. -/
theorem fifoReadReturnsUnreadBytes : Obligations.FifoReadReturnsUnreadBytes := by
  intro s n out _ hout
  have hbytes : out = s.sb.readBytes n.toNat := hout.trans (Sb.readBytes_eq ..).symm
  have hlength : out.length = s.sb.readCount n.toNat := hbytes ▸ Sb.readBytes_length ..
  refine ⟨?_, hlength⟩
  rw [exec_sbRead, ← hbytes, Sb.afterRead, ← hlength]
  rfl

theorem exec_sbRemoveChunk (k : Word) (s : State) :
    exec (.sbRemoveChunk k) s = if s.sb.data.length < k.toNat then .next { s with responses := s.answered [0x0B] }
      else .next { s with sb := s.sb.removeChunk k.toNat, responses := s.answered [0x00] } := rfl

/-- Settles O57, by the command's equation. -/
theorem fifoRemoveChunkShiftsTheCursor : Obligations.FifoRemoveChunkShiftsTheCursor := fun s k => exec_sbRemoveChunk k s

theorem sb_of_exec_sbRemoveChunk {s t : State} {k : Word} (hk : k.toNat ≤ s.sb.data.length)
    (h : exec (.sbRemoveChunk k) s = .next t) : t.sb = s.sb.removeChunk k.toNat := by
  rw [exec_sbRemoveChunk, if_neg hk.not_gt] at h
  cases h
  rfl

/-! ### The cursors over a command (46_streaming_buffer.md R195, R196) -/

section CommandEffect
variable {s t : State} {i : Instr} (h : CommandEffect s i t)
include h

/-- The FIFO after a command that does not compact: as it was, with admitted bytes at its tail, or read. -/
theorem CommandEffect.sb_cases_of_not_compacts (hi : compacts i = false) : t.sb = s.sb ∨
    (∃ data, admits s.params.sbCap (s.sb.data.length + data.length) = true ∧ t.sb = { data := s.sb.data ++ data, rd := s.sb.rd }) ∨
    ∃ n, t.sb = s.sb.afterRead n := by
  cases h with
  | fifoAppend ha => exact .inr (.inl ⟨_, ha, rfl⟩)
  | fifoRead n => exact .inr (.inr ⟨_, rfl⟩)
  | reset | fifoReset | fifoRemove => cases hi
  | push => exact .inl (drain_sb _)
  | _ => exact .inl rfl

/-- The FIFO after a command that compacts: as it was, at its reset value, or without some bytes of its head. -/
theorem CommandEffect.sb_cases_of_compacts (hi : compacts i = true) : t.sb = s.sb ∨ t.sb = Sb.reset ∨
    ∃ k ≤ s.sb.data.length, t.sb = s.sb.removeChunk k := by
  cases h with
  | reset | fifoReset => exact .inr (.inl rfl)
  | fifoRemove hk => exact .inr (.inr ⟨_, hk, rfl⟩)
  | refuse | answer => exact .inl rfl
  | write | push | overflow | close | rawWrite | frame | fifoAppend | fifoRead => cases hi

/-- A read stops at the write cursor, and a removed chunk takes the read cursor with it. -/
theorem CommandEffect.keeps_rd_le (hs : s.sb.rd ≤ s.sb.data.length) : t.sb.rd ≤ t.sb.data.length := by
  cases hi : compacts i with
  | false =>
    rcases h.sb_cases_of_not_compacts hi with hsb | ⟨data, _, hsb⟩ | ⟨n, hsb⟩ <;> rw [hsb]
    · exact hs
    · simp only [List.length_append]
      omega
    · have hcount := s.sb.readCount_le n
      simp only [Sb.afterRead]
      omega
  | true =>
    rcases h.sb_cases_of_compacts hi with hsb | hsb | ⟨k, hk, hsb⟩ <;> rw [hsb]
    · exact hs
    · exact Nat.le_refl 0
    · simp only [Sb.removeChunk, List.length_drop]
      split <;> omega

/-- The data grows by an append only, and an append is admitted within the capacity only. -/
theorem CommandEffect.keeps_sbCap (hs : admits s.params.sbCap s.sb.data.length = true) :
    admits t.params.sbCap t.sb.data.length = true := by
  rw [h.params_eq]
  cases hi : compacts i with
  | false =>
    rcases h.sb_cases_of_not_compacts hi with hsb | ⟨data, ha, hsb⟩ | ⟨n, hsb⟩ <;> rw [hsb]
    · exact hs
    · rwa [List.length_append]
    · exact hs
  | true =>
    rcases h.sb_cases_of_compacts hi with hsb | hsb | ⟨k, _, hsb⟩ <;> rw [hsb]
    · exact hs
    · exact admits_mono (Nat.zero_le _) hs
    · exact admits_mono (List.length_drop ▸ Nat.sub_le ..) hs

theorem CommandEffect.keeps_fifoOrdered (hs : FifoOrdered s) : FifoOrdered t := by
  obtain ⟨hrd, hcap⟩ := hs
  exact ⟨h.keeps_rd_le hrd, admits_eq_true_iff.1 (h.keeps_sbCap (admits_eq_true_iff.2 hcap))⟩

end CommandEffect

/-- Settles O18: every command keeps the order of the cursors and the capacity, and the rest of a step does not touch the FIFO. -/
theorem stepKeepsFifoOrdered : Obligations.StepKeepsFifoOrdered := fun _ _ hs hstep =>
  step_keeps (P := FifoOrdered) (fun _ h => h) (fun _ _ _ _ _ h => h) (fun _ _ _ he h => he.keeps_fifoOrdered h) hstep hs

/-! ### Runs of commands without a compaction (46_streaming_buffer.md R196) -/

/-- What each command of a sequence keeps, the sequence keeps. -/
theorem execAll_keeps {P : State → Prop} {is : List Instr} (hcommand : ∀ i ∈ is, ∀ s t, CommandEffect s i t → P s → P t)
    {s t : State} (h : execAll is s = .next t) (hs : P s) : P t := by
  induction is generalizing s with
  | nil => cases h; exact hs
  | cons i is ih =>
    obtain ⟨u, hexec, he⟩ := exec_effect i s
    rw [execAll, hexec] at h
    exact ih (fun j hj => hcommand j (List.mem_cons_of_mem i hj)) h (hcommand i List.mem_cons_self s u he hs)

/-- The FIFO of `t` is that of `s` with perhaps more bytes at its tail and a later read cursor. -/
def FifoExtends (s t : State) : Prop := s.sb.data <+: t.sb.data ∧ s.sb.rd ≤ t.sb.rd

theorem fifoExtends_refl (s : State) : FifoExtends s s := ⟨List.prefix_rfl, Nat.le_refl _⟩

theorem FifoExtends.trans {s t u : State} (h : FifoExtends s t) (h' : FifoExtends t u) : FifoExtends s u := by
  obtain ⟨hdata, hrd⟩ := h
  obtain ⟨hdata', hrd'⟩ := h'
  exact ⟨hdata.trans hdata', hrd.trans hrd'⟩

theorem CommandEffect.fifoExtends {s t : State} {i : Instr} (h : CommandEffect s i t) (hi : compacts i = false) : FifoExtends s t := by
  unfold FifoExtends
  rcases h.sb_cases_of_not_compacts hi with hsb | ⟨data, _, hsb⟩ | ⟨n, hsb⟩ <;> rw [hsb]
  · exact fifoExtends_refl s
  · exact ⟨List.prefix_append .., Nat.le_refl _⟩
  · exact ⟨List.prefix_rfl, Nat.le_add_right ..⟩

/-- Settles O58: each command that does not compact extends the FIFO or leaves it. -/
theorem fifoCursorsOnlyGrow : Obligations.FifoCursorsOnlyGrow := fun _ s _ hcompacts h =>
  execAll_keeps (P := FifoExtends s) (fun i hi _ _ he hu => hu.trans (he.fifoExtends (hcompacts i hi))) h (fifoExtends_refl s)

/-! ### The order of the bytes (46_streaming_buffer.md R197) -/

theorem returnedBy_sbRead (n : Word) (s : State) : returnedBy (.sbRead n) s = s.sb.readBytes n.toNat := by
  simp [returnedBy, exec_sbRead, State.answered, encodeBytes, List.drop_append]

theorem returnedBy_of_ne_sbRead {i : Instr} (h : ∀ n, i ≠ .sbRead n) (s : State) : returnedBy i s = [] := by
  unfold returnedBy
  split
  · exact absurd rfl (h _)
  · rfl

theorem appendedBy_of_ne_sbAppend {i : Instr} (h : ∀ data, i ≠ .sbAppend data) (s : State) : appendedBy i s = [] := by
  unfold appendedBy
  split
  · exact absurd rfl (h _)
  · rfl

theorem fifoHistory_cons {i : Instr} {s t : State} (h : exec i s = .next t) (is : List Instr) :
    fifoHistory (i :: is) s =
      (appendedBy i s ++ (fifoHistory is t).1, returnedBy i s ++ (fifoHistory is t).2.1, (fifoHistory is t).2.2) := by
  rw [fifoHistory, h]

theorem unread_of_sbAppend {data : ByteString} {s t : State} (h : exec (.sbAppend data) s = .next t)
    (hs : s.sb.rd ≤ s.sb.data.length) : t.unread = s.unread ++ appendedBy (.sbAppend data) s := by
  cases ha : admits s.params.sbCap (s.sb.data.length + data.length) with
  | true =>
    cases (exec_sbAppend_of_admits ha).symm.trans h
    simp [State.unread, appendedBy, ha, List.drop_append_of_le_length hs]
  | false =>
    cases (exec_sbAppend_of_full ha).symm.trans h
    simp [State.unread, appendedBy, ha]

theorem returnedBy_append_unread_of_sbRead {n : Word} {s t : State} (h : exec (.sbRead n) s = .next t) :
    returnedBy (.sbRead n) s ++ t.unread = s.unread := by
  cases (exec_sbRead n s).symm.trans h
  rw [returnedBy_sbRead]
  exact s.sb.readBytes_append_unread n.toNat

/-- The bytes are accounted for over one command: what it returns and what is unread after it is what was unread before it and what it
appends. -/
theorem returnedBy_append_unread {i : Instr} {s t : State} (h : exec i s = .next t) (hi : compacts i = false)
    (hs : s.sb.rd ≤ s.sb.data.length) : returnedBy i s ++ t.unread = s.unread ++ appendedBy i s := by
  by_cases happend : ∃ data, i = .sbAppend data
  · obtain ⟨data, rfl⟩ := happend
    rw [returnedBy_of_ne_sbRead (fun _ => Instr.noConfusion), List.nil_append, unread_of_sbAppend h hs]
  by_cases hread : ∃ n, i = .sbRead n
  · obtain ⟨n, rfl⟩ := hread
    rw [appendedBy_of_ne_sbAppend (fun _ => Instr.noConfusion), List.append_nil, returnedBy_append_unread_of_sbRead h]
  · rw [not_exists] at happend hread
    have hsb : t.sb = s.sb := (CommandEffect.of_exec h).sb_eq happend hread
      (by rintro _ rfl; cases hi) (by rintro rfl; cases hi) (by rintro rfl; cases hi)
    rw [returnedBy_of_ne_sbRead hread, appendedBy_of_ne_sbAppend happend, List.nil_append, List.append_nil, State.unread,
      State.unread, hsb]

theorem fifoHistory_returned_append_unread {is : List Instr} {s : State} (hcompacts : ∀ i ∈ is, compacts i = false)
    (hs : s.sb.rd ≤ s.sb.data.length) :
    (fifoHistory is s).2.1 ++ (fifoHistory is s).2.2.unread = s.unread ++ (fifoHistory is s).1 := by
  induction is generalizing s with
  | nil => simp [fifoHistory]
  | cons i is ih =>
    obtain ⟨hi, his⟩ := List.forall_mem_cons.1 hcompacts
    obtain ⟨t, hexec, he⟩ := exec_effect i s
    rw [fifoHistory_cons hexec, List.append_assoc, ih his (he.keeps_rd_le hs), ← List.append_assoc,
      returnedBy_append_unread hexec hi hs, List.append_assoc]

/-- Settles O59: the account of one command (`returnedBy_append_unread`) carried along the sequence, and the unread bytes that a removed
chunk leaves. -/
theorem fifoReturnsBytesInOrder : Obligations.FifoReturnsBytesInOrder := by
  refine ⟨fun _ _ => fifoHistory_returned_append_unread, fun s t k _ hk h => ?_⟩
  have hsb := sb_of_exec_sbRemoveChunk hk h
  refine ⟨by rw [hsb, Sb.removeChunk], ?_⟩
  rw [State.unread, hsb, Sb.removeChunk_unread]

end Sys2Proof.Machine
end

section
/-! Family 47_system.md: the register map read by index, what CFG_WRITE and CFG_READ answer for each register and for the other
indices, and the reset values. -/

namespace Sys2Proof.Machine

/-! ### The register map (10_state.md R22) -/

@[simp] theorem Reg.ofIndex_index (r : Reg) : Reg.ofIndex r.index = some r := by
  cases r <;> rfl

theorem Reg.index_of_ofIndex {b : Byte} {r : Reg} (h : Reg.ofIndex b = some r) : r.index = b :=
  eq_of_beq (List.find?_some h :)

theorem Reg.index_le_of_writable {r : Reg} (h : r.writable = true) : r.index ≤ 0x06 := by
  revert h
  cases r <;> decide

theorem Reg.ofIndex_eq_none_of_reserved {b : Byte}
    (h : (0x06 < b ∧ b < 0x10) ∨ (0x12 < b ∧ b < 0x20) ∨ 0x21 < b) : Reg.ofIndex b = none := by
  cases hr : Reg.ofIndex b with
  | none => rfl
  | some r =>
    rw [← Reg.index_of_ofIndex hr] at h
    revert h
    cases r <;> decide

/-! ### CFG_WRITE (47_system.md R210) -/

theorem exec_cfgWrite_of_legal {r : Reg} {v : Word} (hw : r.writable = true) (hl : r.legal v = true) (s : State) :
    exec (.cfgWrite r.index v) s = .next { s with regs := s.regs.write r v, responses := s.answered [0x00] } := by
  simp only [exec, execCfgWrite, Reg.ofIndex_index, hw, hl]
  rfl

theorem exec_cfgWrite_of_illegal {r : Reg} {v : Word} (hl : r.legal v = false) (s : State) :
    exec (.cfgWrite r.index v) s = .next { s with responses := s.answered [0x03] } := by
  simp only [exec, execCfgWrite, Reg.ofIndex_index, hl, Bool.and_false]
  rfl

/-- A register whose legal values are those with `P` stores them and refuses the others. -/
theorem exec_cfgWrite_of_legal_iff {r : Reg} {v : Word} {P : Prop} [Decidable P] (hw : r.writable = true)
    (hl : r.legal v = true ↔ P) (s : State) :
    exec (.cfgWrite r.index v) s = if P
      then .next { s with regs := s.regs.write r v, responses := s.answered [0x00] }
      else .next { s with responses := s.answered [0x03] } := by
  split
  next hP => exact exec_cfgWrite_of_legal hw (hl.2 hP) s
  next hP => exact exec_cfgWrite_of_illegal (Bool.eq_false_iff.2 (mt hl.1 hP)) s

/-- Above the writable registers stand the read-only and the reserved indices. -/
theorem exec_cfgWrite_of_lt {reg : Byte} (h : 0x06 < reg) (v : Word) (s : State) :
    exec (.cfgWrite reg v) s = .next { s with responses := s.answered [0x03] } := by
  rcases exec_cfgWrite_cases reg v s with ⟨r, hr, hw, _, _⟩ | hrefused
  · have hle : reg ≤ 0x06 := Reg.index_of_ofIndex hr ▸ Reg.index_le_of_writable hw
    exact absurd h (BitVec.not_lt.2 hle)
  · exact hrefused

/-- Settles O22: each register's column of legal values decides (`exec_cfgWrite_of_legal_iff`); TX_SEQ and TX_TIME take every value. -/
theorem cfgWriteStoresLegalValues : Obligations.CfgWriteStoresLegalValues := fun s v =>
  ⟨exec_cfgWrite_of_legal_iff (r := .stationId) rfl decide_eq_true_iff s,
    exec_cfgWrite_of_legal_iff (r := .rleEsc) rfl decide_eq_true_iff s,
    exec_cfgWrite_of_legal_iff (r := .chkDiv) rfl decide_eq_true_iff s,
    exec_cfgWrite_of_legal_iff (r := .txKey) rfl decide_eq_true_iff s,
    exec_cfgWrite_of_legal_iff (r := .txPriority) rfl decide_eq_true_iff s,
    exec_cfgWrite_of_legal (r := .txSeq) rfl rfl s,
    exec_cfgWrite_of_legal (r := .txTime) rfl rfl s,
    fun _ h => exec_cfgWrite_of_lt h v s⟩

/-! ### CFG_READ (47_system.md R211) -/

theorem State.readReg_rxState (s : State) : s.readReg .rxState = if s.rx.state = .awaitingHeader then 0 else 1 := by
  cases h : s.rx.state <;> simp [State.readReg, h]

theorem State.readReg_rxPendLen_of_awaitingHeader {s : State} (h : s.rx.state = .awaitingHeader) : s.readReg .rxPendLen = 0 := by
  simp [State.readReg, h]

theorem State.readReg_rxPendLen_of_hdr {s : State} {h : Header} (hstate : s.rx.state = .awaitingPayload)
    (hhdr : s.rx.hdr = some h) : s.readReg .rxPendLen = h.dataLength := by
  simp [State.readReg, hstate, hhdr]

theorem exec_cfgRead_of_readReg {s : State} {r : Reg} {v : Word} (h : s.readReg r = v) :
    exec (.cfgRead r.index) s = .next { s with responses := s.answered (0x00 :: le32 v) } := by
  rw [exec_cfgRead_of_index r.ofIndex_index, h]
  rfl

theorem exec_cfgRead_of_reserved {reg : Byte} (h : Reg.ofIndex reg = none) (s : State) :
    exec (.cfgRead reg) s = .next { s with responses := s.answered [0x03] } := by
  simp only [exec, execCfgRead, h]
  rfl

/-- Settles O23: an index in the map answers what its register reads as (`exec_cfgRead_of_readReg`), and the gaps of the map are
refused. -/
theorem cfgReadReturnsTheRegister : Obligations.CfgReadReturnsTheRegister := fun s =>
  ⟨exec_cfgRead_of_readReg (r := .stationId) rfl,
    exec_cfgRead_of_readReg (r := .rleEsc) rfl,
    exec_cfgRead_of_readReg (r := .chkDiv) rfl,
    exec_cfgRead_of_readReg (r := .txKey) rfl,
    exec_cfgRead_of_readReg (r := .txPriority) rfl,
    exec_cfgRead_of_readReg (r := .txSeq) rfl,
    exec_cfgRead_of_readReg (r := .txTime) rfl,
    exec_cfgRead_of_readReg s.readReg_rxState,
    exec_cfgRead_of_readReg (r := .rxAccLen) rfl,
    fun hheader => exec_cfgRead_of_readReg (State.readReg_rxPendLen_of_awaitingHeader hheader),
    fun _ hpayload hhdr => exec_cfgRead_of_readReg (State.readReg_rxPendLen_of_hdr hpayload hhdr),
    exec_cfgRead_of_readReg (r := .sbTail) rfl,
    exec_cfgRead_of_readReg (r := .sbRd) rfl,
    fun _ hreserved => exec_cfgRead_of_reserved (Reg.ofIndex_eq_none_of_reserved hreserved) s⟩

/-! ### RESET (47_system.md R212, 70_reset_and_hazards.md R260, R261) -/

theorem exec_reset (s : State) :
    exec .reset s = .next { s with regs := Regs.reset, rx := Rx.reset, sb := Sb.reset, responses := s.answered [0x00] } := rfl

/-- Settles O25: the command and the start of a run write the same three reset values; the statement spells them out. -/
theorem resetCommandEqualsPowerOn : Obligations.ResetCommandEqualsPowerOn :=
  ⟨exec_reset, fun params =>
    ⟨State.resetWith_params params, State.resetWith_regs params, State.resetWith_rx params, State.resetWith_sb params,
      State.resetWith_tx params, State.resetWith_ev params, State.resetWith_mq params⟩⟩

end Sys2Proof.Machine
end

section
/-! Family 60_exceptions.md: a step that is not the host's removal as the effect of a command, the records the receiver adds to the
message queue, and an event carried as bytes. -/

namespace Sys2Proof.Machine

/-! ### A step that is not the host's removal (20_memory.md R54, R55) -/

/-- A transaction that does not decode is answered like a refused command. -/
theorem performTransaction_effect {p : Port} {tx : ByteString} {s t : State} (h : performTransaction p tx s = .next t) :
    ∃ i, CommandEffect s i t := by
  cases hd : decode p tx with
  | error e =>
    cases (performTransaction_of_decode_error hd s).symm.trans h
    exact ⟨.reset, .refuse _ _⟩
  | ok i => exact ⟨i, .of_exec ((performTransaction_of_decode_ok hd s).symm.trans h)⟩

/-- A port's step changes nothing, or it has the effect of a command in the state in which the transaction has been taken. -/
theorem servePort_effect {p : Port} {s t : State} (h : servePort p s = .next t) :
    t = s ∨ ∃ q0 q1 n i, CommandEffect { s with p0 := q0, p1 := q1, port := p, turn := n } i t := by
  cases hq : s.pending p with
  | nil =>
    cases (servePort_of_empty hq).symm.trans h
    exact .inl rfl
  | cons tx q =>
    rw [servePort_of_pending hq] at h
    obtain ⟨i, he⟩ := performTransaction_effect h
    cases p with
    | p0 => exact .inr ⟨q, s.p1, s.turn + 1, i, he⟩
    | p1 => exact .inr ⟨s.p0, q, s.turn + 1, i, he⟩

theorem step_effect_of_granted_ne {s t : State} (hg : s.granted ≠ some .queueReader) (h : step s = .next t) :
    t = s ∨ ∃ q0 q1 p n i, CommandEffect { s with p0 := q0, p1 := q1, port := p, turn := n } i t := by
  cases hagent : s.granted with
  | none =>
    cases (step_of_granted_none hagent).symm.trans h
    exact .inl rfl
  | some agent =>
    cases agent with
    | queueReader => exact absurd hagent hg
    | port p =>
      rw [step_of_granted_port hagent] at h
      rcases servePort_effect h with heq | ⟨q0, q1, n, i, he⟩
      · exact .inl heq
      · exact .inr ⟨q0, q1, p, n, i, he⟩

/-! ### The records the receiver adds (41_frame_receiver.md R106, 60_exceptions.md R232) -/

/-- A record that passes the tests of R106: MSG_LEN bytes, the last of them the checksum of the others. -/
def VerifiedRecord (params : Params) (divisor : Nat) (r : Record) : Prop :=
  r.length = 12 + params.textCap ∧
    checksumCompute (r.take (11 + params.textCap)) divisor = byteAt r (11 + params.textCap)

/-- The queue of `t` is that of `s` with verified records behind it, by the parameters and the CHK_DIV of `s`. -/
def EnqueuesVerified (s t : State) : Prop :=
  ∃ new : List Record, t.mq = s.mq ++ new ∧ ∀ r ∈ new, VerifiedRecord s.params s.regs.chkDiv.toNat r

theorem enqueuesVerified_of_mq_eq {s t : State} (h : t.mq = s.mq) : EnqueuesVerified s t :=
  ⟨[], by simpa using h, by simp⟩

theorem EnqueuesVerified.trans {s t u : State} (h : EnqueuesVerified s t) (hparams : t.params = s.params) (hregs : t.regs = s.regs)
    (h' : EnqueuesVerified t u) : EnqueuesVerified s u := by
  obtain ⟨new, hmq, hnew⟩ := h
  obtain ⟨new', hmq', hnew'⟩ := h'
  rw [hparams, hregs] at hnew'
  exact ⟨new ++ new', by rw [hmq', hmq, List.append_assoc], List.forall_mem_append.2 ⟨hnew, hnew'⟩⟩

theorem enqueuesVerified_enqueue {s : State} {d : Record} (hd : VerifiedRecord s.params s.regs.chkDiv.toNat d) :
    EnqueuesVerified s (s.enqueue d) :=
  ⟨[d], rfl, by simpa using hd⟩

/-- DispatchText enqueues behind its two tests only. -/
theorem dispatchText_enqueuesVerified (d : ByteString) (s : State) : EnqueuesVerified s (dispatchText d s) := by
  unfold dispatchText
  split_ifs with hlen hsum
  · exact enqueuesVerified_of_mq_eq rfl
  · have hlast : msgLen s.params - 1 = 11 + s.params.textCap := by unfold msgLen; omega
    rw [hlast] at hsum
    exact enqueuesVerified_enqueue ⟨not_not.1 hlen, hsum⟩
  · exact enqueuesVerified_of_mq_eq rfl

theorem dispatch_enqueuesVerified (d : ByteString) (h : Header) (s : State) : EnqueuesVerified s (dispatch d h s) := by
  unfold dispatch
  split
  · exact dispatchText_enqueuesVerified d s
  all_goals exact enqueuesVerified_of_mq_eq rfl

theorem processPayload_enqueuesVerified (p : ByteString) (h : Header) (s : State) : EnqueuesVerified s (processPayload p h s) := by
  unfold processPayload
  split
  · exact enqueuesVerified_of_mq_eq rfl
  · split
    · exact enqueuesVerified_of_mq_eq rfl
    · exact dispatch_enqueuesVerified _ h s

/-- Only a complete payload adds to the queue. -/
theorem drainStage_enqueuesVerified (s : State) : EnqueuesVerified s (drainStage s).2 := by
  unfold drainStage
  split
  · rcases headerStage_cases s with ⟨_, h⟩ | ⟨_, _, _, h⟩ | ⟨_, _, _, _, _, h⟩ <;> rw [h] <;>
      exact enqueuesVerified_of_mq_eq rfl
  · rcases payloadStage_cases s with ⟨_, h⟩ | ⟨_, _, _, h⟩ | ⟨hd, _, _, h⟩ <;> rw [h]
    · exact enqueuesVerified_of_mq_eq rfl
    · exact enqueuesVerified_of_mq_eq rfl
    · exact processPayload_enqueuesVerified _ hd (s.setRx _)

/-- An iteration changes neither the parameters nor CHK_DIV, so that every record of the drain is verified by those at its start. -/
theorem drain_enqueuesVerified (s : State) : EnqueuesVerified s (drain s) := by
  obtain ⟨_, _, hadds⟩ : (drain s).params = s.params ∧ (drain s).regs = s.regs ∧ EnqueuesVerified s (drain s) := by
    refine drainLoop_keeps (P := fun u => u.params = s.params ∧ u.regs = s.regs ∧ EnqueuesVerified s u) ?_ _
      ⟨rfl, rfl, enqueuesVerified_of_mq_eq rfl⟩
    rintro u ⟨hparams, hregs, hq⟩
    obtain ⟨_, _, hframe, _, _⟩ := drainStage_frame u
    have hstage := hq.trans hparams hregs (drainStage_enqueuesVerified u)
    rw [hframe] at hstage ⊢
    exact ⟨hparams, hregs, hstage⟩
  exact hadds

/-- RX_PUSH adds what its drain adds, and no other command touches the queue. -/
theorem CommandEffect.enqueuesVerified {s t : State} {i : Instr} (h : CommandEffect s i t) : EnqueuesVerified s t := by
  cases h with
  | push => exact drain_enqueuesVerified (s.setAcc _)
  | _ => exact enqueuesVerified_of_mq_eq rfl

theorem CommandEffect.mqAnswers_eq {s t : State} {i : Instr} (h : CommandEffect s i t) : t.mqAnswers = s.mqAnswers := by
  obtain ⟨_, hframe⟩ := h.frame_eq
  rw [hframe]

/-- Settles O16: a step that is not the host's removal changes nothing or has the effect of a command, and taking a transaction
touches neither the queue nor what verifies its records. -/
theorem queueGrowsAtTailShrinksAtHead : Obligations.QueueGrowsAtTailShrinksAtHead := by
  intro s
  refine ⟨step_of_granted_queueReader, fun t hg hstep => ?_⟩
  rcases step_effect_of_granted_ne hg hstep with rfl | ⟨_, _, _, _, _, he⟩
  · exact ⟨rfl, enqueuesVerified_of_mq_eq rfl⟩
  · exact ⟨he.mqAnswers_eq, he.enqueuesVerified⟩

/-! ### An event carried as bytes (60_exceptions.md R220, R225) -/

/-- A count that a `u32` holds is carried as it is; the free value is not reached. -/
theorem countWord_of_lt {n : Nat} (h : n < 4294967296) : countWord n = BitVec.ofNat 32 n :=
  if_pos (Nat.le_of_lt_succ h)

theorem Event.bytes_queueSizeChanged {n : Nat} (h : n < 4294967296) :
    (Event.queueSizeChanged n).bytes = 0x01 :: le32 (BitVec.ofNat 32 n) := by
  rw [Event.bytes, countWord_of_lt h]
  rfl

theorem Event.bytes_rxDrop (reason : DropReason) : (Event.rxDrop reason).bytes = [0x10, reason.code] := rfl

/-- Settles O37: the audio events and the drop reasons by their codes, the count by `countWord_of_lt`. -/
theorem eventsAsBytes : Obligations.EventsAsBytes := by
  refine ⟨fun _ => Event.bytes_queueSizeChanged, fun _ => rfl, fun _ => rfl, ?_⟩
  simp only [Event.bytes_rxDrop, List.map_cons, List.map_nil, DropReason.code]

end Sys2Proof.Machine
end

section
/-! Family 70_reset_and_hazards.md: the start of a run, a compaction up to an observed read cursor, and the fairness of the ports: what
a step and the agents do to the queues, and from these the run in which every waiting transaction is performed. -/

namespace Sys2Proof.Machine

/-! ### The start of a run (70_reset_and_hazards.md R260, R261) -/

theorem resetWith_receiverDrained (params : Params) : ReceiverDrained (State.resetWith params) :=
  ⟨fun _ => by simp [Rx.reset, hdrLen], fun _ hpayload => by cases hpayload⟩

theorem resetWith_fifoOrdered (params : Params) : FifoOrdered (State.resetWith params) :=
  ⟨Nat.le_refl 0, fun _ _ => Nat.zero_le _⟩

theorem resetWith_registersLegal (params : Params) : RegistersLegal (State.resetWith params) :=
  (by decide : 1 ≤ Regs.reset.chkDiv.toNat ∧ Regs.reset.chkDiv.toNat ≤ 256)

/-- Settles O21: nothing is buffered, held or queued at the start of a run, and CHK_DIV is 256. -/
theorem resetMeetsTheInvariants : Obligations.ResetMeetsTheInvariants := by
  intro params
  refine ⟨iff_of_true rfl rfl, resetWith_receiverDrained params, resetWith_fifoOrdered params, ?_, ?_,
    resetWith_registersLegal params, ?_⟩
  · exact fun _ _ => Nat.zero_le _
  · intro _ hheld
    cases hheld
  · intro _ hqueued
    cases hqueued

/-! ### The safe compaction (70_reset_and_hazards.md R281) -/

theorem le32_inj {v w : Word} : le32 v = le32 w ↔ v = w := by
  refine ⟨fun h => ?_, congrArg le32⟩
  have hread : takeU32 (le32 v) = takeU32 (le32 w) := congrArg takeU32 h
  simpa only [takeU32_le32_end, Option.some.injEq, Prod.mk.injEq, and_true] using hread

/-- The position that SB_READ_POS returns is the read cursor or, where it saturates, before it. -/
theorem sbReadPos_le_rd {s : State} {p : Word}
    (h : exec .sbReadPos s = .next { s with responses := s.answered (0x00 :: le32 p) }) : p.toNat ≤ s.sb.rd := by
  have hanswer := congrArg State.responses (Host.Outcome.next.inj ((exec_sbReadPos s).symm.trans h))
  obtain rfl : BitVec.ofNat 32 (min s.sb.rd 4294967295) = p := le32_inj.1 (List.cons.inj (State.answered_inj.1 hanswer)).2
  rw [BitVec.toNat_ofNat]
  omega

/-- A chunk that ends at or before the read cursor holds no unread byte. -/
theorem exec_sbRemoveChunk_of_le_rd {s : State} {k : Word} (hk : k.toNat ≤ s.sb.rd) (hs : s.sb.rd ≤ s.sb.data.length) :
    ∃ u, exec (.sbRemoveChunk k) s = .next u ∧ u.responses = s.answered [0x00] ∧ u.unread = s.unread := by
  refine ⟨_, (exec_sbRemoveChunk k s).trans (if_neg (hk.trans hs).not_gt), rfl, ?_⟩
  rw [State.unread, Sb.removeChunk_unread, Nat.max_eq_left hk, State.unread]

/-- Settles O60: what ran in between moves the read cursor forward only (O58) and keeps it within the data, so the observed position
is still at or before it. -/
theorem safeCompactionKeepsUnreadBytes : Obligations.SafeCompactionKeepsUnreadBytes := by
  intro s t is p hpos hs hcompacts hrun
  obtain ⟨_, hrd⟩ := fifoCursorsOnlyGrow is s t hcompacts hrun
  have ht : t.sb.rd ≤ t.sb.data.length :=
    execAll_keeps (P := fun u => u.sb.rd ≤ u.sb.data.length) (fun _ _ _ _ he hu => he.keeps_rd_le hu) hrun hs
  exact exec_sbRemoveChunk_of_le_rd ((sbReadPos_le_rd hpos).trans hrd) ht

/-! ### What a step does to the queues at the ports and to the turn (20_memory.md R54) -/

@[simp] theorem State.setPending_pending_same (s : State) (p : Port) (q : List ByteString) : (s.setPending p q).pending p = q := by
  cases p <;> rfl

theorem State.setPending_pending_of_ne {p p' : Port} (h : p ≠ p') (s : State) (q : List ByteString) :
    (s.setPending p q).pending p' = s.pending p' := by
  cases p <;> cases p'
  · exact absurd rfl h
  · rfl
  · rfl
  · exact absurd rfl h

/-- A transaction that is performed leaves what stands at the ports, and the turn, as they were. -/
theorem performTransaction_ports {p : Port} {tx : ByteString} {s t : State} (h : performTransaction p tx s = .next t) :
    t.pending = s.pending ∧ t.turn = s.turn := by
  obtain ⟨i, he⟩ := performTransaction_effect h
  obtain ⟨_, hframe⟩ := he.frame_eq
  rw [hframe]
  exact ⟨funext fun p' => by cases p' <;> rfl, rfl⟩

/-- The step of a granted port takes its oldest transaction, leaves the other port's queue and counts the turn. -/
theorem step_ports_of_granted_port {s t : State} {p : Port} (hg : s.granted = some (.port p)) (h : step s = .next t) :
    t.pending p = (s.pending p).drop 1 ∧ (∀ p', p ≠ p' → t.pending p' = s.pending p') ∧ t.turn = s.turn + 1 := by
  obtain ⟨tx, q, hq⟩ := List.exists_cons_of_ne_nil (State.port_mem_waiting_iff.1 (State.granted_mem_waiting hg))
  rw [step_of_granted_port hg, servePort_of_pending hq] at h
  obtain ⟨hpending, hturn⟩ := performTransaction_ports h
  rw [hpending, hq]
  exact ⟨s.setPending_pending_same p q, fun p' hp => s.setPending_pending_of_ne hp q, hturn⟩

/-- Where a port waits and is not granted, another agent is served: the port's queue stays, and the turn is counted. -/
theorem step_ports_of_granted_ne {s t : State} {p : Port} (hp : s.pending p ≠ []) (hg : s.granted ≠ some (.port p))
    (h : step s = .next t) : t.pending p = s.pending p ∧ t.turn = s.turn + 1 := by
  cases hagent : s.granted with
  | none =>
    have hwaits := State.port_mem_waiting_iff.2 hp
    rw [State.granted_eq_none_iff.1 hagent] at hwaits
    exact absurd hwaits List.not_mem_nil
  | some agent =>
    cases agent with
    | port p' =>
      obtain ⟨_, hother, hturn⟩ := step_ports_of_granted_port hagent h
      exact ⟨hother p (by rintro rfl; exact hg hagent), hturn⟩
    | queueReader =>
      cases (step_of_granted_queueReader hagent).symm.trans h
      exact ⟨by cases p <;> rfl, rfl⟩

/-- Between two steps the queues grow at their tails only, and no turn is counted. -/
theorem AgentsAct.ports {u t : State} (h : AgentsAct u t) (p : Port) : u.pending p <+: t.pending p ∧ t.turn = u.turn := by
  obtain ⟨q0, q1, k, rfl⟩ := h
  cases p with
  | p0 => exact ⟨List.prefix_append _ q0, rfl⟩
  | p1 => exact ⟨List.prefix_append _ q1, rfl⟩

/-! ### Every waiting transaction is performed (70_reset_and_hazards.md R290) -/

section IsRun
variable {run : Nat → State} (hrun : IsRun run)
include hrun

theorem IsRun.pending_succ_of_granted {n : Nat} {p : Port} (hg : (run n).granted = some (.port p)) :
    ((run n).pending p).drop 1 <+: (run (n + 1)).pending p := by
  obtain ⟨u, hstep, hact⟩ := hrun n
  rw [← (step_ports_of_granted_port hg hstep).1]
  exact (hact.ports p).1

theorem IsRun.pending_succ_of_granted_ne {n : Nat} {p : Port} (hp : (run n).pending p ≠ [])
    (hg : (run n).granted ≠ some (.port p)) :
    (run n).pending p <+: (run (n + 1)).pending p ∧ (run (n + 1)).turn = (run n).turn + 1 := by
  obtain ⟨u, hstep, hact⟩ := hrun n
  obtain ⟨hpending, hturn⟩ := step_ports_of_granted_ne hp hg hstep
  obtain ⟨hprefix, hturn'⟩ := hact.ports p
  exact ⟨hpending ▸ hprefix, hturn'.trans hturn⟩

/-- A port that waits is granted at the latest when the turns come to one that is reserved for it, and what waits stays until then. -/
theorem IsRun.granted_of_reservedFor {n d : Nat} {p : Port} (hreserved : reservedFor ((run n).turn + d) = some p)
    (hp : (run n).pending p ≠ []) :
    ∃ m, n ≤ m ∧ (run m).granted = some (.port p) ∧ (run n).pending p <+: (run m).pending p := by
  induction d generalizing n with
  | zero => exact ⟨n, Nat.le_refl n, State.granted_of_reserved hp hreserved, List.prefix_rfl⟩
  | succ d ih =>
    by_cases hg : (run n).granted = some (.port p)
    · exact ⟨n, Nat.le_refl n, hg, List.prefix_rfl⟩
    obtain ⟨hprefix, hturn⟩ := hrun.pending_succ_of_granted_ne hp hg
    have hreserved' : reservedFor ((run (n + 1)).turn + d) = some p := by
      rwa [hturn, Nat.add_right_comm, Nat.add_assoc]
    obtain ⟨m, hm, hgranted, hprefix'⟩ := ih hreserved' (hprefix.ne_nil hp)
    exact ⟨m, Nat.le_of_succ_le hm, hgranted, hprefix.trans hprefix'⟩

/-- The rota reserves a turn for each port after any turn, so a port that waits is granted, what waits still there. -/
theorem IsRun.exists_granted {n : Nat} {p : Port} {first : ByteString} {q : List ByteString}
    (h : first :: q <+: (run n).pending p) :
    ∃ m, n ≤ m ∧ (run m).granted = some (.port p) ∧ first :: q <+: (run m).pending p := by
  obtain ⟨turn, hle, hreserved⟩ := exists_reservedFor (run n).turn p
  obtain ⟨d, rfl⟩ := Nat.exists_eq_add_of_le hle
  obtain ⟨m, hm, hgranted, hkept⟩ := hrun.granted_of_reservedFor hreserved (h.ne_nil (List.cons_ne_nil first q))
  exact ⟨m, hm, hgranted, h.trans hkept⟩

/-- Each grant of the port takes the first of the transactions ahead, so the port comes to be granted with none of them left. -/
theorem IsRun.exists_granted_at_head {n : Nat} {p : Port} {ahead : List ByteString} {t : ByteString}
    (h : ahead ++ [t] <+: (run n).pending p) :
    ∃ m q, n ≤ m ∧ (run m).granted = some (.port p) ∧ (run m).pending p = t :: q := by
  induction ahead generalizing n with
  | nil =>
    obtain ⟨m, hm, hgranted, q, hq⟩ := hrun.exists_granted h
    exact ⟨m, q, hm, hgranted, hq.symm⟩
  | cons first ahead ih =>
    obtain ⟨m, hm, hgranted, hkept⟩ := hrun.exists_granted h
    have htail : ahead ++ [t] <+: (run (m + 1)).pending p := (List.IsPrefix.drop hkept 1).trans (hrun.pending_succ_of_granted hgranted)
    obtain ⟨m', q, hm', hhead⟩ := ih htail
    exact ⟨m', q, by omega, hhead⟩

end IsRun

/-- Settles O9, by induction on the transactions ahead (`IsRun.exists_granted_at_head`). -/
theorem everyWaitingTransactionIsPerformed : Obligations.EveryWaitingTransactionIsPerformed := by
  intro run hrun n p ahead t behind h
  have hwaits : ahead ++ [t] <+: (run n).pending p := ⟨behind, by rw [h, List.append_assoc, List.singleton_append]⟩
  exact hrun.exists_granted_at_head hwaits

end Sys2Proof.Machine
end
